-- ==== Sys2Proof/Word.lean ====
section
/-! DEFINITION. The two word types of the machine (spec/00_scope.md R4, R5). -/

namespace Sys2Proof

/-- A byte, an unsigned integer in 0..255 (R5): the width of A, X, Y and of a memory cell. -/
abbrev Byte := BitVec 8

/-- A 16-bit address or word, 0..65535 (R5): the width of `pc` (R14) and `sp` (R24, D4). -/
abbrev Addr := BitVec 16

end Sys2Proof
end

