-- ==== Sys2Proof/Machine/Bits.lean ====
section
/-! DEFINITION. Byte order and sign extension (spec/00_scope.md R5, 20_memory.md R36, 30_encoding.md R52): the
only conversions between bytes, words and integers the machine makes. -/

namespace Sys2Proof

/-- `v[7:0]` of a word, the byte at the lower address (R36). -/
def loByte (v : Addr) : Byte := BitVec.ofNat 8 v.toNat

/-- `v[15:8]` of a word, the byte at the higher address (R36). -/
def hiByte (v : Addr) : Byte := BitVec.ofNat 8 (v.toNat / 256)

/-- `(hi << 8) | lo` (R5, R36). -/
def joinBytes (hi lo : Byte) : Addr := BitVec.ofNat 16 (hi.toNat * 256 + lo.toNat)

/-- `sext_8(b)` (R5): "values ≥128 represent negative offsets by subtracting 256". -/
def sext8 (b : Byte) : Int := if b.toNat ≤ 127 then (b.toNat : Int) else (b.toNat : Int) - 256

/-- The byte whose `sext8` an offset of -128..127 is: "wrapped into [0,255] by adding 256 if negative" (R68). -/
def relByte (off : Int) : Byte := BitVec.ofInt 8 off

/-- `v mod 256`, the floored modulus, as a byte (R5, D11, log 24): an integer truncated to a byte. -/
def truncByte (v : Int) : Byte := BitVec.ofInt 8 v

end Sys2Proof
end

