-- ==== Sys2Proof/Syntax.lean ====
section
/-! DEFINITION. The 31 instructions, one constructor per row of spec/opcode_table.json in the order of
30_encoding.md R55. Operands are decoded once (R52): an immediate and a zero-page address are bytes, an absolute
address is a 16-bit word, a branch offset is the signed integer the byte stands for. -/

namespace Sys2Proof

inductive Instr where
  /-- BRK, Halt (R80). -/
  | brk
  /-- CLC, Clear carry (R81). -/
  | clc
  /-- JSR addr16, Jump to subroutine (R82). -/
  | jsr (target : Addr)
  /-- JMP addr16, Jump absolute (R83). -/
  | jmp (target : Addr)
  /-- RTS, Return from subroutine (R84). -/
  | rts
  /-- ADC #imm8, Add with carry (R85). -/
  | adcImm (imm : Byte)
  /-- STA zp8 (R88). -/
  | staZp (zp : Byte)
  /-- STX zp8 (R89). -/
  | stxZp (zp : Byte)
  /-- STA addr16 (R90). -/
  | staAbs (addr : Addr)
  /-- STA addr16,Y (R91). -/
  | staAbsY (addr : Addr)
  /-- STA (zp8),Y (R92). -/
  | staIndY (zp : Byte)
  /-- LDA #imm8 (R93). -/
  | ldaImm (imm : Byte)
  /-- LDX #imm8 (R94). -/
  | ldxImm (imm : Byte)
  /-- LDY #imm8 (R95). -/
  | ldyImm (imm : Byte)
  /-- LDA zp8 (R96). -/
  | ldaZp (zp : Byte)
  /-- LDY zp8 (R97). -/
  | ldyZp (zp : Byte)
  /-- TAY (R98). -/
  | tay
  /-- TYA (R99). -/
  | tya
  /-- INY (R100). -/
  | iny
  /-- DEY (R101). -/
  | dey
  /-- INX (R102). -/
  | inx
  /-- DEX (R103). -/
  | dex
  /-- INC zp8 (R104). -/
  | incZp (zp : Byte)
  /-- DEC zp8 (R105). -/
  | decZp (zp : Byte)
  /-- CMP #imm8 (R106). -/
  | cmpImm (imm : Byte)
  /-- CPX #imm8 (R107). -/
  | cpxImm (imm : Byte)
  /-- CPY #imm8 (R108). -/
  | cpyImm (imm : Byte)
  /-- CMP (zp8),Y (R109). -/
  | cmpIndY (zp : Byte)
  /-- BEQ rel8 (R110): `off` is the signed offset. -/
  | beq (off : Int)
  /-- BNE rel8 (R111): `off` is the signed offset. -/
  | bne (off : Int)
  /-- NOP, No operation (R112). -/
  | nop
  deriving DecidableEq, Repr

end Sys2Proof
end

