-- ==== Sys2Proof/WellFormed.lean ====
section
/-! DEFINITION. Which terms of `Instr` an encoding can stand for. Operand values are unrestricted (30_encoding.md
R58), so the types of `Instr` say everything but one thing: a branch offset is one of the -128..127 that a byte
stands for (R52). -/

namespace Sys2Proof

/-- The range of `rel8` (R52). -/
def relInRange (off : Int) : Bool := decide (-128 ≤ off) && decide (off ≤ 127)

/-- The instruction has an encoding (R51, R52, R58). -/
def Instr.wellFormed : Instr → Bool
  | .brk => true
  | .clc => true
  | .jsr _ => true
  | .jmp _ => true
  | .rts => true
  | .adcImm _ => true
  | .staZp _ => true
  | .stxZp _ => true
  | .staAbs _ => true
  | .staAbsY _ => true
  | .staIndY _ => true
  | .ldaImm _ => true
  | .ldxImm _ => true
  | .ldyImm _ => true
  | .ldaZp _ => true
  | .ldyZp _ => true
  | .tay => true
  | .tya => true
  | .iny => true
  | .dey => true
  | .inx => true
  | .dex => true
  | .incZp _ => true
  | .decZp _ => true
  | .cmpImm _ => true
  | .cpxImm _ => true
  | .cpyImm _ => true
  | .cmpIndY _ => true
  | .beq off => relInRange off
  | .bne off => relInRange off
  | .nop => true

end Sys2Proof
end

