-- ==== Sys2Proof/Decode.lean ====
section
/-! DEFINITION. Encoding and decoding (spec/30_encoding.md R50 to R58). Decoding is a lookup of the whole opcode
byte in the opcode map (R53), then the operand bytes of the row's format (R51, R52). The map is the OPEN parameter
OPCODE_MAP (R54, D1): an argument, whose default is the table of R55. -/

namespace Sys2Proof

/-- The 31 operations of R55, in its order: a row of the table without its operand. -/
inductive Op where
  | brk | clc | jsr | jmp | rts | adcImm | staZp | stxZp | staAbs | staAbsY | staIndY
  | ldaImm | ldxImm | ldyImm | ldaZp | ldyZp | tay | tya | iny | dey | inx | dex
  | incZp | decZp | cmpImm | cpxImm | cpyImm | cmpIndY | beq | bne | nop
  deriving DecidableEq, Repr

/-- Every operation, in the order of R55. -/
def Op.all : List Op :=
  [.brk, .clc, .jsr, .jmp, .rts, .adcImm, .staZp, .stxZp, .staAbs, .staAbsY, .staIndY,
   .ldaImm, .ldxImm, .ldyImm, .ldaZp, .ldyZp, .tay, .tya, .iny, .dey, .inx, .dex,
   .incZp, .decZp, .cmpImm, .cpxImm, .cpyImm, .cmpIndY, .beq, .bne, .nop]

/-- The seven formats (R51). -/
inductive Format where
  | imp | imm | zp | indY | rel | abs | absY
  deriving DecidableEq, Repr

/-- The length in bytes of an instruction of each format (R51). -/
def Format.length : Format → Nat
  | .imp => 1
  | .imm => 2
  | .zp => 2
  | .indY => 2
  | .rel => 2
  | .abs => 3
  | .absY => 3

/-- The format column of R55. -/
def Op.format : Op → Format
  | .brk => .imp
  | .clc => .imp
  | .jsr => .abs
  | .jmp => .abs
  | .rts => .imp
  | .adcImm => .imm
  | .staZp => .zp
  | .stxZp => .zp
  | .staAbs => .abs
  | .staAbsY => .absY
  | .staIndY => .indY
  | .ldaImm => .imm
  | .ldxImm => .imm
  | .ldyImm => .imm
  | .ldaZp => .zp
  | .ldyZp => .zp
  | .tay => .imp
  | .tya => .imp
  | .iny => .imp
  | .dey => .imp
  | .inx => .imp
  | .dex => .imp
  | .incZp => .zp
  | .decZp => .zp
  | .cmpImm => .imm
  | .cpxImm => .imm
  | .cpyImm => .imm
  | .cmpIndY => .indY
  | .beq => .rel
  | .bne => .rel
  | .nop => .imp

/-- An opcode map: the byte value of each operation (`OPCODE_MAP`, R4, R54). -/
abbrev OpcodeMap := Op → Byte

/-- The opcode column of R55, the default of OPCODE_MAP. 0xA9 and 0x85 are the source's; the other 29 are
PRESUMED, the MOS 6502's, by the spec's decision D1 (log 1; unsafe for claims about byte images). -/
def defaultOpcodeMap : OpcodeMap
  | .brk => 0x00
  | .clc => 0x18
  | .jsr => 0x20
  | .jmp => 0x4C
  | .rts => 0x60
  | .adcImm => 0x69
  | .staZp => 0x85
  | .stxZp => 0x86
  | .staAbs => 0x8D
  | .staAbsY => 0x99
  | .staIndY => 0x91
  | .ldaImm => 0xA9
  | .ldxImm => 0xA2
  | .ldyImm => 0xA0
  | .ldaZp => 0xA5
  | .ldyZp => 0xA4
  | .tay => 0xA8
  | .tya => 0x98
  | .iny => 0xC8
  | .dey => 0x88
  | .inx => 0xE8
  | .dex => 0xCA
  | .incZp => 0xE6
  | .decZp => 0xC6
  | .cmpImm => 0xC9
  | .cpxImm => 0xE0
  | .cpyImm => 0xC0
  | .cmpIndY => 0xD1
  | .beq => 0xF0
  | .bne => 0xD0
  | .nop => 0xEA

/-- What D1 requires of an opcode map: one-to-one, the source's two values, and 0x02 not a value (R54). -/
structure OpcodeMap.Legal (m : OpcodeMap) : Prop where
  oneToOne : ∀ p q : Op, m p = m q → p = q
  ldaImm : m .ldaImm = 0xA9
  staZp : m .staZp = 0x85
  notTwo : ∀ p : Op, m p ≠ 0x02

/-- The lookup of a whole byte in the opcode map (R53, R143). -/
def lookup (m : OpcodeMap) (b : Byte) : Option Op := Op.all.find? (fun o => m o == b)

/-- Why a list of bytes is no instruction. -/
inductive DecodeError where
  /-- There is no byte at all. -/
  | noBytes
  /-- The first byte is not in the opcode map (R56). -/
  | unknownOpcode (b : Byte)
  /-- The opcode's operand bytes are not all there: they would run past the end of memory (R58). -/
  | truncated (op : Op)
  deriving DecidableEq, Repr

/-- An operand of one byte (formats IMM, ZP, INDY, REL of R51). -/
def withByte (o : Op) (k : Byte → Instr) : List Byte → Except DecodeError Instr
  | b :: _ => .ok (k b)
  | [] => .error (.truncated o)

/-- An operand of two bytes, low byte first (formats ABS, ABSY of R51; R52). -/
def withWord (o : Op) (k : Addr → Instr) : List Byte → Except DecodeError Instr
  | lo :: hi :: _ => .ok (k (joinBytes hi lo))
  | [_] => .error (.truncated o)
  | [] => .error (.truncated o)

/-- The operand of an operation, read from the bytes after the opcode (R51, R52). -/
def withOperand (o : Op) (rest : List Byte) : Except DecodeError Instr :=
  match o with
  | .brk => .ok .brk
  | .clc => .ok .clc
  | .jsr => withWord .jsr .jsr rest
  | .jmp => withWord .jmp .jmp rest
  | .rts => .ok .rts
  | .adcImm => withByte .adcImm .adcImm rest
  | .staZp => withByte .staZp .staZp rest
  | .stxZp => withByte .stxZp .stxZp rest
  | .staAbs => withWord .staAbs .staAbs rest
  | .staAbsY => withWord .staAbsY .staAbsY rest
  | .staIndY => withByte .staIndY .staIndY rest
  | .ldaImm => withByte .ldaImm .ldaImm rest
  | .ldxImm => withByte .ldxImm .ldxImm rest
  | .ldyImm => withByte .ldyImm .ldyImm rest
  | .ldaZp => withByte .ldaZp .ldaZp rest
  | .ldyZp => withByte .ldyZp .ldyZp rest
  | .tay => .ok .tay
  | .tya => .ok .tya
  | .iny => .ok .iny
  | .dey => .ok .dey
  | .inx => .ok .inx
  | .dex => .ok .dex
  | .incZp => withByte .incZp .incZp rest
  | .decZp => withByte .decZp .decZp rest
  | .cmpImm => withByte .cmpImm .cmpImm rest
  | .cpxImm => withByte .cpxImm .cpxImm rest
  | .cpyImm => withByte .cpyImm .cpyImm rest
  | .cmpIndY => withByte .cmpIndY .cmpIndY rest
  | .beq => withByte .beq (fun b => .beq (sext8 b)) rest
  | .bne => withByte .bne (fun b => .bne (sext8 b)) rest
  | .nop => .ok .nop

/-- Decoding under an opcode map: total on any bytes; bytes after the instruction are not looked at. -/
def decodeWith (m : OpcodeMap) : List Byte → Except DecodeError Instr
  | [] => .error .noBytes
  | b :: rest =>
    match lookup m b with
    | none => .error (.unknownOpcode b)
    | some o => withOperand o rest

/-- Decoding under the default map (R55). -/
def decode (bs : List Byte) : Except DecodeError Instr := decodeWith defaultOpcodeMap bs

/-- The operation an instruction is an instance of. -/
def Instr.op : Instr → Op
  | .brk => .brk
  | .clc => .clc
  | .jsr _ => .jsr
  | .jmp _ => .jmp
  | .rts => .rts
  | .adcImm _ => .adcImm
  | .staZp _ => .staZp
  | .stxZp _ => .stxZp
  | .staAbs _ => .staAbs
  | .staAbsY _ => .staAbsY
  | .staIndY _ => .staIndY
  | .ldaImm _ => .ldaImm
  | .ldxImm _ => .ldxImm
  | .ldyImm _ => .ldyImm
  | .ldaZp _ => .ldaZp
  | .ldyZp _ => .ldyZp
  | .tay => .tay
  | .tya => .tya
  | .iny => .iny
  | .dey => .dey
  | .inx => .inx
  | .dex => .dex
  | .incZp _ => .incZp
  | .decZp _ => .decZp
  | .cmpImm _ => .cmpImm
  | .cpxImm _ => .cpxImm
  | .cpyImm _ => .cpyImm
  | .cmpIndY _ => .cmpIndY
  | .beq _ => .beq
  | .bne _ => .bne
  | .nop => .nop

/-- The length column of R55: the number of bytes of an instruction. -/
def Instr.length (i : Instr) : Nat := i.op.format.length

/-- A word's two bytes, low byte first (R36, R51). -/
def wordBytes (v : Addr) : List Byte := [loByte v, hiByte v]

/-- The operand bytes of an instruction (R51, R52). -/
def operandBytes : Instr → List Byte
  | .brk => []
  | .clc => []
  | .jsr t => wordBytes t
  | .jmp t => wordBytes t
  | .rts => []
  | .adcImm v => [v]
  | .staZp v => [v]
  | .stxZp v => [v]
  | .staAbs t => wordBytes t
  | .staAbsY t => wordBytes t
  | .staIndY v => [v]
  | .ldaImm v => [v]
  | .ldxImm v => [v]
  | .ldyImm v => [v]
  | .ldaZp v => [v]
  | .ldyZp v => [v]
  | .tay => []
  | .tya => []
  | .iny => []
  | .dey => []
  | .inx => []
  | .dex => []
  | .incZp v => [v]
  | .decZp v => [v]
  | .cmpImm v => [v]
  | .cpxImm v => [v]
  | .cpyImm v => [v]
  | .cmpIndY v => [v]
  | .beq off => [relByte off]
  | .bne off => [relByte off]
  | .nop => []

/-- Encoding under an opcode map: the opcode byte, then the operand bytes, at ascending addresses (R50). -/
def encodeWith (m : OpcodeMap) (i : Instr) : List Byte := m i.op :: operandBytes i

/-- Encoding under the default map (R55). -/
def encode (i : Instr) : List Byte := encodeWith defaultOpcodeMap i

/-- The assembler's branch fixup (R68): the signed offset that makes a branch whose opcode is at `a0` land on
`target`; the base is `a0 + 2`, the address after the branch (C1). -/
def branchOffset (a0 target : Addr) : Int := (target.toNat : Int) - ((a0.toNat : Int) + 2)

/-- The bytes of a number whose bits are numbered as spec/opcode_table.json numbers them: bits 7..0 are the first
byte, 15..8 the second, 23..16 the third; bits from `nbits` on are 0. Three bytes, the longest instruction (R50). -/
def tableBytes (nbits w : Nat) : List Byte :=
  let v := w % 2 ^ nbits
  [BitVec.ofNat 8 v, BitVec.ofNat 8 (v / 256), BitVec.ofNat 8 (v / 65536)]

/-- What the decoder reads from an instruction word given as a number. -/
def decodeTableWord (nbits w : Nat) : Option Instr :=
  match decode (tableBytes nbits w) with
  | .ok i => some i
  | .error _ => none

end Sys2Proof
end

