-- ==== Sys2Proof/Machine/Flags.lean ====
section
/-! DEFINITION. The flag computations (spec/10_state.md R12, R20, R21, R22). -/

namespace Sys2Proof.Machine

/-- `Z` of a register write: "Zero = value==0" (R12). -/
def zeroFlag (w : Byte) : Bool := decide (w.toNat = 0)

/-- `N` of a register write: "Negative = value>0x7F" (R12). -/
def negativeFlag (w : Byte) : Bool := decide (w.toNat > 0x7F)

/-- `C` of ADC: "whether the raw sum exceeded 255" (R20, R85). -/
def carryFlag (raw : Nat) : Bool := decide (raw > 255)

/-- `Z` of a compare: "Zero := register == operand" (R118). -/
def equalFlag (r m : Byte) : Bool := decide (r = m)

/-- "Carry-as-0-or-1" (R5, R85). -/
def carryIn (c : Bool) : Nat := if c then 1 else 0

end Sys2Proof.Machine
end

