-- ==== Sys2Proof/Config.lean ====
section
/-! DEFINITION. What is fixed for the machine (spec/00_scope.md R4) and the type of the spec's optional
parameter INDY_FF. There is no free value in this model: the spec leaves no result undefined after which
the machine goes on. The OPEN parameters are arguments: `OPCODE_MAP` of the decoder and the step
(Decode.lean), `SP_RESET` and `INDY_FF` fields of State given by the launch record (Machine/Launch.lean). -/

namespace Sys2Proof

/-- `MEMSIZE`: the number of bytes of the address space (R4, R32). -/
abbrev Config.memSize : Nat := 65536

/-- The highest address, 0xFFFF (R5, R33). -/
abbrev Config.topAddr : Nat := 0xFFFF

/-- `INDY_FF` (40_addressing.md R76, D8): where the high byte of a (zp),Y pointer comes from when the operand
is 0xFF. The spec's default is `fault`; no claim may depend on the other two without evidence. -/
inductive IndyFF where
  /-- The access raises `PointerStraddle`: the spec's default. -/
  | fault
  /-- The high byte is the cell 0x0100, "operand + 1". -/
  | linear
  /-- The high byte is the cell 0x0000, the wrap inside the zero page. -/
  | wrap
  deriving DecidableEq, Repr

end Sys2Proof
end

