-- ==== Sys2Proof/Machine/Launch.lean ====
section
/-! DEFINITION. The launch record: what the spec leaves open at construction (spec/10_state.md R30; D5, D8, D13).
A construction takes any launch record; `launchDefaults` is the one that State.reset takes. -/

namespace Sys2Proof.Machine

/-- The launch inputs: values the spec does not state (R30), and the OPEN parameters `SP_RESET` and `INDY_FF`. -/
structure Launch where
  a : Byte
  x : Byte
  y : Byte
  c : Bool
  z : Bool
  n : Bool
  pc : Addr
  spReset : Addr
  indyFF : IndyFF
  deriving DecidableEq, Repr

/-- The value `SP_RESET` takes in State.reset. DESIGN CHOICE (log 5; unsafe for a claim about State.reset alone):
"a fixed high address", the spec gives no number; 0xFF00 is the illustration of 95_test_vectors.md. -/
def spResetDefault : Addr := 0xFF00

/-- The launch record of State.reset. DESIGN CHOICE (log 13; unsafe for a claim about State.reset alone): the spec
states no value of A, X, Y, C, Z, N and pc at construction. `INDY_FF` is the spec's default (R76, log 8). -/
def launchDefaults : Launch :=
  { a := 0x00, x := 0x00, y := 0x00, c := false, z := false, n := false, pc := 0x0000,
    spReset := spResetDefault, indyFF := .fault }

end Sys2Proof.Machine
end

