-- ==== Sys2Proof/Machine/Memory.lean ====
section
/-! DEFINITION. The 65,536 bytes of memory (spec/20_memory.md R32) as a list of (address, byte) cells in one
canonical form: addresses strictly rising, each below 65,536, and no cell that holds what an unlisted address reads
as. An unlisted address reads as 0x00, the spec's own value after construction and `reset()` (10_state.md R30). -/

namespace Sys2Proof.Machine

/-- The contents of memory. -/
abbrev Memory := List Host.Cell

/-- What an address that is not listed reads as: "zero-initialized" (R30, R32). -/
def unlistedByte : Byte := 0x00

/-- Memory after construction and after `reset()`: every cell 0x00 (R140, R141). -/
def Memory.zero : Memory := []

/-- The byte at an address. -/
def Memory.read : Memory → Nat → Byte
  | [], _ => unlistedByte
  | (k, v) :: rest, a => if k = a then v else Memory.read rest a

/-- The memory without a cell for an address. -/
def Memory.erase : Memory → Nat → Memory
  | [], _ => []
  | (k, v) :: rest, a => if k = a then Memory.erase rest a else (k, v) :: Memory.erase rest a

/-- The memory with a cell for an address, in rising order. -/
def Memory.insert : Memory → Nat → Byte → Memory
  | [], a, v => [(a, v)]
  | (k, w) :: rest, a, v =>
    if a < k then (a, v) :: (k, w) :: rest
    else if k = a then (a, v) :: rest
    else (k, w) :: Memory.insert rest a v

/-- The memory after a byte is written (R34): writing what an unlisted address reads as removes the cell. -/
def Memory.write (m : Memory) (a : Nat) (v : Byte) : Memory :=
  if v = unlistedByte then m.erase a else m.insert a v

/-- The memory after bytes are written at ascending addresses (R142). -/
def Memory.writeList : Memory → Nat → List Byte → Memory
  | m, _, [] => m
  | m, a, v :: rest => Memory.writeList (m.write a v) (a + 1) rest

/-- The bytes at `n` ascending addresses, those that exist (none lies above 0xFFFF, R32). -/
def Memory.bytesFrom (m : Memory) (a : Nat) : Nat → List Byte
  | 0 => []
  | n + 1 => if a > Config.topAddr then [] else m.read a :: Memory.bytesFrom m (a + 1) n

/-- The cells rise strictly from `lo` on, lie below 65,536 and hold no `unlistedByte`. -/
def Memory.risesFrom : Nat → Memory → Bool
  | _, [] => true
  | lo, (k, v) :: rest =>
    decide (lo ≤ k) && decide (k < Config.memSize) && decide (v ≠ unlistedByte) && Memory.risesFrom (k + 1) rest

/-- The canonical form holds. -/
def Memory.wf (m : Memory) : Bool := Memory.risesFrom 0 m

end Sys2Proof.Machine
end

