-- ==== Sys2Proof/Machine/State.lean ====
section
/-! DEFINITION. The state of the machine (spec/10_state.md R10: nine items), the two OPEN parameters that are
launch inputs, the model's own record of the outcome Halt, and the reasons a step can stop. -/

namespace Sys2Proof.Machine

/-- The state between two steps. The first nine fields are the architectural state of R10. -/
structure State where
  /-- `A`, the accumulator (R11). -/
  a : Byte
  /-- `X` (R11). -/
  x : Byte
  /-- `Y` (R11). -/
  y : Byte
  /-- `C`, Carry (R20). -/
  c : Bool
  /-- `Z`, Zero (R21). -/
  z : Bool
  /-- `N`, Negative (R22). -/
  n : Bool
  /-- `pc`, the address of the next opcode byte (R14). -/
  pc : Addr
  /-- `sp`, the address of the next free stack byte (R24). -/
  sp : Addr
  /-- `mem`, the 65,536 bytes (R32). -/
  mem : Memory
  /-- The parameter `SP_RESET` (R4, R24, D5): no step changes it. -/
  spReset : Addr
  /-- The parameter `INDY_FF` (R76, D8): no step changes it. -/
  indyFF : IndyFF
  /-- The model's own field: the last `advance()` returned false (R80, R120) and no `load_program` has come since.
  No instruction reads it. DESIGN CHOICE (log 15; safe). -/
  halted : Bool
  deriving DecidableEq, Repr

/-- The four kinds of out-of-range address (R123). -/
inductive AddressKind where
  /-- `Fetch8` with `pc = 0xFFFF` (R16, R18, R119). -/
  | pcIncrement
  /-- A data address outside 0..0xFFFF (R33 to R35, R78). -/
  | dataAddress
  /-- A taken branch whose target is outside 0..0xFFFF (R113). -/
  | branchTarget
  /-- A JSR whose return address exceeds 0xFFFF (R82). -/
  | returnAddress
  deriving DecidableEq, Repr

/-- The faults of a step (60_exceptions.md R121 to R125). A fault carries no successor state (R135). -/
inductive Fault where
  /-- Raised by the dispatch of a step when the opcode byte is in no row of the map (R121). The machine's own
  exception: safe, the source says the run is over. -/
  | unknownOpcode (b : Byte)
  /-- Raised by a fetch, an indexed store or compare, a taken branch, or JSR (R123, D3). Safe: the model stops where
  the source, which calls this undefined, may go on. -/
  | addressOutOfRange (kind : AddressKind)
  /-- Raised by JSR when a push finds `sp = 0xFFFF` (R25, R124, D6). Safe, as above. -/
  | stackOverflow
  /-- Raised by RTS when a pop finds `sp = SP_RESET` (R26, R124, D6). Safe, as above. -/
  | stackUnderflow
  /-- Raised by STA (zp),Y and CMP (zp),Y with operand 0xFF when `INDY_FF` is fault (R76, R125, D8). Safe, as above. -/
  | pointerStraddle (zp : Byte)
  deriving DecidableEq, Repr

/-- The reasons the model gives a step or a host call no meaning. -/
inductive Refusal where
  /-- Raised by an arm of exec whose instruction has no meaning yet; no arm is left in that state. Safe. -/
  | notModelled (mnemonic : String)
  /-- Raised by a step taken after a step returned Halt (R146, D15: "give no step after it"). Safe. -/
  | stepAfterHalt
  /-- Raised by a `load_program` out of bounds (R133, D17). Safe. -/
  | loadOutOfBounds
  deriving DecidableEq, Repr

/-- Construction (70_reset_and_hazards.md R140): memory zero, `sp = SP_RESET`, everything the spec leaves
unspecified taken from the launch record. -/
def State.construct (l : Launch) : State :=
  { a := l.a, x := l.x, y := l.y, c := l.c, z := l.z, n := l.n, pc := l.pc, sp := l.spReset,
    mem := Memory.zero, spReset := l.spReset, indyFF := l.indyFF, halted := false }

/-- The machine right after construction with the launch record the log names (log 5, 8, 13). -/
def State.reset : State := State.construct launchDefaults

end Sys2Proof.Machine
end

