-- ==== Sys2Proof/Machine/Ops.lean ====
section
/-! DEFINITION. The named operations every meaning is written from: raising a fault, memory, the instruction
stream, the stack and the register-write path (spec/00_scope.md R6). -/

namespace Sys2Proof.Machine

/-- What an operation answers: a value, or the fault it raised. -/
abbrev Res (α : Type) := Except Fault α

/-- `raise F(info)` (R6): no statement after it executes. This is ALL the machine does when it takes an exception:
nothing is saved, no mode or flag changes, control goes nowhere, and there is no return (R128, R129); the fault is
delivered to the host and has no successor state (R135). -/
def raise {α : Type} (f : Fault) : Res α := .error f

/-- The outcome of a step from its last state or its fault (R120). -/
def deliver (r : Res State) : Host.Outcome State Fault Refusal :=
  match r with
  | .ok t => .next t
  | .error f => .fault f

/-- `MemRead(addr, 1)` (R33). -/
def memRead (addr : Int) (s : State) : Res Byte :=
  if addr < 0 ∨ addr > 0xFFFF then raise (.addressOutOfRange .dataAddress) else pure (s.mem.read addr.toNat)

/-- `MemWrite(addr, 1, v)` (R34). -/
def memWrite (addr : Int) (v : Byte) (s : State) : Res State :=
  if addr < 0 ∨ addr > 0xFFFF then raise (.addressOutOfRange .dataAddress)
  else pure { s with mem := s.mem.write addr.toNat v }

/-- The increment of `Fetch8` (R16): `pc` never wraps (R18). -/
def incPc (s : State) : Res State :=
  if s.pc = 0xFFFF#16 then raise (.addressOutOfRange .pcIncrement) else pure { s with pc := s.pc + 1 }

/-- `Fetch8()` (R16): the byte at `pc`, then the increment. -/
def fetch8 (s : State) : Res (Byte × State) := do
  let b ← memRead s.pc.toNat s
  let s1 ← incPc s
  pure (b, s1)

/-- The increments of the fetches of `n` instruction bytes whose values the decoder has read (R16, R17, R119). -/
def consume : Nat → State → Res State
  | 0, s => pure s
  | n + 1, s => do
    let s1 ← incPc s
    consume n s1

/-- `Push8(v)` (R25): the stack grows upward. -/
def push8 (v : Byte) (s : State) : Res State :=
  if s.sp = 0xFFFF#16 then raise .stackOverflow
  else do
    let s1 ← memWrite s.sp.toNat v s
    pure { s1 with sp := s1.sp + 1 }

/-- `Pop8()` (R26): the byte below `sp`, which the pop does not erase. -/
def pop8 (s : State) : Res (Byte × State) :=
  if s.sp = s.spReset then raise .stackUnderflow
  else do
    let b ← memRead ((s.sp.toNat : Int) - 1) s
    pure (b, { s with sp := s.sp - 1 })

/-- The three value registers (R11). -/
inductive Reg where
  | a | x | y
  deriving DecidableEq, Repr

/-- The value of a register. -/
def State.reg (s : State) : Reg → Byte
  | .a => s.a
  | .x => s.x
  | .y => s.y

/-- The state with a register's byte replaced and nothing else. -/
def State.setReg (s : State) : Reg → Byte → State
  | .a, w => { s with a := w }
  | .x, w => { s with x := w }
  | .y, w => { s with y := w }

/-- `WriteReg(r, v)` (R12), the only path that writes A, X or Y (R13): the byte `v mod 256`, Z and N from it. -/
def writeReg (r : Reg) (v : Int) (s : State) : State :=
  let w := truncByte v
  { s.setReg r w with z := zeroFlag w, n := negativeFlag w }

end Sys2Proof.Machine
end

