-- ==== Sys2Proof/Machine/Operands.lean ====
section
/-! DEFINITION. The address-mode resolver (spec/40_addressing.md R70 to R78) on operands that are decoded. An
immediate operand is its byte (R71) and a relative operand its signed offset (R72), so those two modes need no
function here; the bytes they consume are `consume`'s. -/

namespace Sys2Proof.Machine

/-- `EA_ZP` (R73): the byte is the whole address. -/
def eaZp (zp : Byte) : Int := (zp.toNat : Int)

/-- `EA_ABS` (R74). -/
def eaAbs (addr : Addr) : Int := (addr.toNat : Int)

/-- The index arithmetic of ABSY and INDY (R78): the plain integer sum, a fault above 0xFFFF. -/
def indexByY (base : Addr) (s : State) : Res Int :=
  let ea : Int := (base.toNat : Int) + (s.y.toNat : Int)
  if ea > 0xFFFF then raise (.addressOutOfRange .dataAddress) else pure ea

/-- `EA_ABSY` (R77). -/
def eaAbsY (addr : Addr) (s : State) : Res Int := indexByY addr s

/-- Where the high byte of the pointer of INDY lies: `zp + 1`, but for operand 0xFF (R75, R76). -/
def pointerHighAt (zp : Byte) (s : State) : Res Int :=
  if zp = 0xFF#8 then
    match s.indyFF with
    | .fault => raise (.pointerStraddle zp)
    | .linear => pure 0x0100
    | .wrap => pure 0x0000
  else pure ((zp.toNat : Int) + 1)

/-- `EA_INDY` (R75): the pointer in two zero-page bytes, low byte first (R36, D7), plus Y. -/
def eaIndY (zp : Byte) (s : State) : Res Int := do
  let hiAt ← pointerHighAt zp s
  let lo ← memRead (eaZp zp) s
  let hi ← memRead hiAt s
  indexByY (joinBytes hi lo) s

/-- The transfer of a taken branch (R113): `pc` already is the address after the branch. -/
def branchTo (off : Int) (s : State) : Res State :=
  let t : Int := (s.pc.toNat : Int) + off
  if t < 0 ∨ t > 0xFFFF then raise (.addressOutOfRange .branchTarget)
  else pure { s with pc := BitVec.ofInt 16 t }

/-- A conditional branch after its offset is consumed (R110, R111): not taken, `pc` stays. -/
def branchIf (taken : Bool) (off : Int) (s : State) : Res State :=
  if taken then branchTo off s else pure s

end Sys2Proof.Machine
end

