-- ==== Sys2Proof/Machine/Arith.lean ====
section
/-! DEFINITION. ADC immediate (spec/43_adc.md). -/

namespace Sys2Proof.Machine

/-- ADC #imm8 (R85): the raw sum of A, the operand and C; C from the raw sum, A, Z and N through `writeReg`. -/
def execAdcImm (imm : Byte) (s : State) : Host.Outcome State Fault Refusal := deliver do
  let s1 ← consume 2 s
  let raw : Nat := s1.a.toNat + imm.toNat + carryIn s1.c
  pure (writeReg .a (raw : Int) { s1 with c := carryFlag raw })

end Sys2Proof.Machine
end

