-- ==== Sys2Proof/Machine/Branches.lean ====
section
/-! DEFINITION. BEQ, BNE, NOP (spec/48_branches_nop.md). -/

namespace Sys2Proof.Machine

/-- BEQ rel8 (R110): taken when Z is true; the base is the address after the branch (R113, log 9). -/
def execBeq (off : Int) (s : State) : Host.Outcome State Fault Refusal := deliver do
  let s1 ← consume 2 s
  branchIf s1.z off s1

/-- BNE rel8 (R111): taken when Z is false. -/
def execBne (off : Int) (s : State) : Host.Outcome State Fault Refusal := deliver do
  let s1 ← consume 2 s
  branchIf (!s1.z) off s1

/-- NOP (R112): nothing but the opcode fetch. -/
def execNop (s : State) : Host.Outcome State Fault Refusal := deliver (consume 1 s)

end Sys2Proof.Machine
end

