-- ==== Sys2Proof/Machine/Compares.lean ====
section
/-! DEFINITION. The four compares (spec/47_compares.md): an equality test into Z and nothing more (R118). -/

namespace Sys2Proof.Machine

/-- A compare of a register with an immediate byte (R106 to R108). -/
def compareImm (r : Reg) (imm : Byte) (s : State) : Host.Outcome State Fault Refusal := deliver do
  let s1 ← consume 2 s
  pure { s1 with z := equalFlag (s1.reg r) imm }

/-- CMP #imm8 (R106). -/
def execCmpImm (imm : Byte) (s : State) : Host.Outcome State Fault Refusal := compareImm .a imm s

/-- CPX #imm8 (R107). -/
def execCpxImm (imm : Byte) (s : State) : Host.Outcome State Fault Refusal := compareImm .x imm s

/-- CPY #imm8 (R108). -/
def execCpyImm (imm : Byte) (s : State) : Host.Outcome State Fault Refusal := compareImm .y imm s

/-- CMP (zp8),Y (R109): the accumulator is compared. PRESUMED (log 12, D12). -/
def execCmpIndY (zp : Byte) (s : State) : Host.Outcome State Fault Refusal := deliver do
  let s1 ← consume 2 s
  let ea ← eaIndY zp s1
  let m ← memRead ea s1
  pure { s1 with z := equalFlag s1.a m }

end Sys2Proof.Machine
end

