-- ==== Sys2Proof/Machine/Halt.lean ====
section
/-! DEFINITION. BRK and CLC (spec/41_halt_clc.md). Every meaning starts at the state before the step, `pc` at the
opcode byte; `consume` is the fetch of the instruction's bytes (R119). -/

namespace Sys2Proof.Machine

/-- BRK (R80): the outcome Halt, recorded in `halted`; nothing else but the opcode fetch. -/
def execBrk (s : State) : Host.Outcome State Fault Refusal := deliver do
  let s1 ← consume 1 s
  pure { s1 with halted := true }

/-- CLC (R81). -/
def execClc (s : State) : Host.Outcome State Fault Refusal := deliver do
  let s1 ← consume 1 s
  pure { s1 with c := false }

end Sys2Proof.Machine
end

