-- ==== Sys2Proof/Machine/Jumps.lean ====
section
/-! DEFINITION. JSR, JMP, RTS (spec/42_jumps_subroutines.md). -/

namespace Sys2Proof.Machine

/-- The byte JSR reads at an operand address after its two pushes (R82, D14): the pushed byte where a push wrote that
cell, else the operand byte `b` the decoder read. `before` is the state before the pushes, `after` the one after. -/
def operandAfterPush (before after : State) (addr : Nat) (b : Byte) : Byte :=
  if addr = before.sp.toNat ∨ addr = before.sp.toNat + 1 then after.mem.read addr else b

/-- JSR (R82): the return address `a0 + 3` is pushed low byte first, then the operand is read, then `pc` is set.
DEDUCED (log 14, D14): pushes before the operand read. -/
def execJsr (target : Addr) (s : State) : Host.Outcome State Fault Refusal := deliver do
  let s1 ← consume 1 s
  let ret : Nat := s1.pc.toNat + 2
  if ret > 0xFFFF then raise (.addressOutOfRange .returnAddress)
  else do
    let s2 ← push8 (loByte (BitVec.ofNat 16 ret)) s1
    let s3 ← push8 (hiByte (BitVec.ofNat 16 ret)) s2
    let s4 ← consume 2 s3
    let lo := operandAfterPush s s3 (s.pc.toNat + 1) (loByte target)
    let hi := operandAfterPush s s3 (s.pc.toNat + 2) (hiByte target)
    pure { s4 with pc := joinBytes hi lo }

/-- JMP (R83). -/
def execJmp (target : Addr) (s : State) : Host.Outcome State Fault Refusal := deliver do
  let s1 ← consume 3 s
  pure { s1 with pc := target }

/-- RTS (R84): pops the high byte, then the low byte; nothing is added to the popped address. -/
def execRts (s : State) : Host.Outcome State Fault Refusal := deliver do
  let s1 ← consume 1 s
  let (hi, s2) ← pop8 s1
  let (lo, s3) ← pop8 s2
  pure { s3 with pc := joinBytes hi lo }

end Sys2Proof.Machine
end

