-- ==== Sys2Proof/Machine/Loads.lean ====
section
/-! DEFINITION. The five loads (spec/45_loads.md): each writes its register through `writeReg` (R116). -/

namespace Sys2Proof.Machine

/-- A load of an immediate byte (R93 to R95). -/
def loadImm (r : Reg) (imm : Byte) (s : State) : Host.Outcome State Fault Refusal := deliver do
  let s1 ← consume 2 s
  pure (writeReg r (imm.toNat : Int) s1)

/-- A load of a zero-page cell (R96, R97). -/
def loadZp (r : Reg) (zp : Byte) (s : State) : Host.Outcome State Fault Refusal := deliver do
  let s1 ← consume 2 s
  let v ← memRead (eaZp zp) s1
  pure (writeReg r (v.toNat : Int) s1)

/-- LDA #imm8 (R93). -/
def execLdaImm (imm : Byte) (s : State) : Host.Outcome State Fault Refusal := loadImm .a imm s

/-- LDX #imm8 (R94). -/
def execLdxImm (imm : Byte) (s : State) : Host.Outcome State Fault Refusal := loadImm .x imm s

/-- LDY #imm8 (R95). -/
def execLdyImm (imm : Byte) (s : State) : Host.Outcome State Fault Refusal := loadImm .y imm s

/-- LDA zp8 (R96). -/
def execLdaZp (zp : Byte) (s : State) : Host.Outcome State Fault Refusal := loadZp .a zp s

/-- LDY zp8 (R97). -/
def execLdyZp (zp : Byte) (s : State) : Host.Outcome State Fault Refusal := loadZp .y zp s

end Sys2Proof.Machine
end

