-- ==== Sys2Proof/Machine/Stores.lean ====
section
/-! DEFINITION. The five stores (spec/44_stores.md): one byte is written, no flag and no register (R115). -/

namespace Sys2Proof.Machine

/-- STA zp8 (R88). -/
def execStaZp (zp : Byte) (s : State) : Host.Outcome State Fault Refusal := deliver do
  let s1 ← consume 2 s
  memWrite (eaZp zp) s1.a s1

/-- STX zp8 (R89). -/
def execStxZp (zp : Byte) (s : State) : Host.Outcome State Fault Refusal := deliver do
  let s1 ← consume 2 s
  memWrite (eaZp zp) s1.x s1

/-- STA addr16 (R90). -/
def execStaAbs (addr : Addr) (s : State) : Host.Outcome State Fault Refusal := deliver do
  let s1 ← consume 3 s
  memWrite (eaAbs addr) s1.a s1

/-- STA addr16,Y (R91). -/
def execStaAbsY (addr : Addr) (s : State) : Host.Outcome State Fault Refusal := deliver do
  let s1 ← consume 3 s
  let ea ← eaAbsY addr s1
  memWrite ea s1.a s1

/-- STA (zp8),Y (R92). -/
def execStaIndY (zp : Byte) (s : State) : Host.Outcome State Fault Refusal := deliver do
  let s1 ← consume 2 s
  let ea ← eaIndY zp s1
  memWrite ea s1.a s1

end Sys2Proof.Machine
end

