-- ==== Sys2Proof/Machine/Transfers.lean ====
section
/-! DEFINITION. Transfers, register and memory increment and decrement (spec/46_transfers_incdec.md). The register
forms set Z and N; the memory forms set no flag (R117, R23). -/

namespace Sys2Proof.Machine

/-- A copy of one register into another (R98, R99). -/
def transfer (src dst : Reg) (s : State) : Host.Outcome State Fault Refusal := deliver do
  let s1 ← consume 1 s
  pure (writeReg dst ((s1.reg src).toNat : Int) s1)

/-- A step of a register by `d` (R100 to R103): -1 is truncated to 0xFF (D11, log 24). -/
def stepReg (r : Reg) (d : Int) (s : State) : Host.Outcome State Fault Refusal := deliver do
  let s1 ← consume 1 s
  pure (writeReg r (((s1.reg r).toNat : Int) + d) s1)

/-- A step of a zero-page cell by `d` (R104, R105): modulo 256 (D10), no flag. -/
def stepCell (zp : Byte) (d : Int) (s : State) : Host.Outcome State Fault Refusal := deliver do
  let s1 ← consume 2 s
  let v ← memRead (eaZp zp) s1
  memWrite (eaZp zp) (truncByte ((v.toNat : Int) + d)) s1

/-- TAY (R98). -/
def execTay (s : State) : Host.Outcome State Fault Refusal := transfer .a .y s

/-- TYA (R99). -/
def execTya (s : State) : Host.Outcome State Fault Refusal := transfer .y .a s

/-- INY (R100). -/
def execIny (s : State) : Host.Outcome State Fault Refusal := stepReg .y 1 s

/-- DEY (R101). -/
def execDey (s : State) : Host.Outcome State Fault Refusal := stepReg .y (-1) s

/-- INX (R102). -/
def execInx (s : State) : Host.Outcome State Fault Refusal := stepReg .x 1 s

/-- DEX (R103). -/
def execDex (s : State) : Host.Outcome State Fault Refusal := stepReg .x (-1) s

/-- INC zp8 (R104). -/
def execIncZp (zp : Byte) (s : State) : Host.Outcome State Fault Refusal := stepCell zp 1 s

/-- DEC zp8 (R105). -/
def execDecZp (zp : Byte) (s : State) : Host.Outcome State Fault Refusal := stepCell zp (-1) s

end Sys2Proof.Machine
end

