-- ==== Sys2Proof/Machine/Dispatch.lean ====
section
/-! DEFINITION. The dispatch of the step (spec/70_reset_and_hazards.md R143): one arm per instruction. -/

namespace Sys2Proof.Machine

def exec (i : Instr) (s : State) : Host.Outcome State Fault Refusal :=
  match i with
  | .brk => Sys2Proof.Machine.execBrk s
  | .clc => Sys2Proof.Machine.execClc s
  | .jsr target => Sys2Proof.Machine.execJsr target s
  | .jmp target => Sys2Proof.Machine.execJmp target s
  | .rts => Sys2Proof.Machine.execRts s
  | .adcImm imm => Sys2Proof.Machine.execAdcImm imm s
  | .staZp zp => Sys2Proof.Machine.execStaZp zp s
  | .stxZp zp => Sys2Proof.Machine.execStxZp zp s
  | .staAbs addr => Sys2Proof.Machine.execStaAbs addr s
  | .staAbsY addr => Sys2Proof.Machine.execStaAbsY addr s
  | .staIndY zp => Sys2Proof.Machine.execStaIndY zp s
  | .ldaImm imm => Sys2Proof.Machine.execLdaImm imm s
  | .ldxImm imm => Sys2Proof.Machine.execLdxImm imm s
  | .ldyImm imm => Sys2Proof.Machine.execLdyImm imm s
  | .ldaZp zp => Sys2Proof.Machine.execLdaZp zp s
  | .ldyZp zp => Sys2Proof.Machine.execLdyZp zp s
  | .tay => Sys2Proof.Machine.execTay s
  | .tya => Sys2Proof.Machine.execTya s
  | .iny => Sys2Proof.Machine.execIny s
  | .dey => Sys2Proof.Machine.execDey s
  | .inx => Sys2Proof.Machine.execInx s
  | .dex => Sys2Proof.Machine.execDex s
  | .incZp zp => Sys2Proof.Machine.execIncZp zp s
  | .decZp zp => Sys2Proof.Machine.execDecZp zp s
  | .cmpImm imm => Sys2Proof.Machine.execCmpImm imm s
  | .cpxImm imm => Sys2Proof.Machine.execCpxImm imm s
  | .cpyImm imm => Sys2Proof.Machine.execCpyImm imm s
  | .cmpIndY zp => Sys2Proof.Machine.execCmpIndY zp s
  | .beq off => Sys2Proof.Machine.execBeq off s
  | .bne off => Sys2Proof.Machine.execBne off s
  | .nop => Sys2Proof.Machine.execNop s

end Sys2Proof.Machine
end

