-- ==== Sys2Proof/Machine/Advance.lean ====
section
/-! DEFINITION. `advance()` (spec/70_reset_and_hazards.md R143): fetch the opcode byte, look it up, execute. -/

namespace Sys2Proof.Machine

/-- The instruction bytes at `pc` that exist, at most three (R50, R58). -/
def fetchWindow (s : State) : List Byte := s.mem.bytesFrom s.pc.toNat 3

/-- The fault of an instruction whose operand bytes run past 0xFFFF (R119): JSR checks its return address before it
fetches its operand (R82, R127 (3)), every other instruction faults at the fetch. -/
def truncationFault : Op → Fault
  | .jsr => .addressOutOfRange .returnAddress
  | _ => .addressOutOfRange .pcIncrement

/-- One step under an opcode map (R143). The opcode fetch comes first (R127 (1)), then the lookup (R127 (2)), then
the instruction's meaning, which starts at the state before the step. -/
def advanceWith (m : OpcodeMap) (s : State) : Host.Outcome State Fault Refusal :=
  match fetch8 s with
  | .error f => .fault f
  | .ok (op, _) =>
    match decodeWith m (fetchWindow s) with
    | .ok i => exec i s
    | .error .noBytes => .fault (.addressOutOfRange .pcIncrement)
    | .error (.unknownOpcode _) => .fault (.unknownOpcode op)
    | .error (.truncated o) => .fault (truncationFault o)

/-- A step is given only while the run goes on (R146, D15; log 15). -/
def stepWith (m : OpcodeMap) (s : State) : Host.Outcome State Fault Refusal :=
  if s.halted then .refused .stepAfterHalt else advanceWith m s

end Sys2Proof.Machine
end

