-- ==== Sys2Proof/Machine/Load.lean ====
section
/-! DEFINITION. The host's two mutators beside `advance` (spec/70_reset_and_hazards.md R141, R142), and the
placement of one instruction where the next step fetches it. -/

namespace Sys2Proof.Machine

/-- `load_program(bytes, start_address)` (R142): copies the bytes, sets `pc`, starts a run (R9); refused out of
bounds (R133, D17). -/
def loadProgram (bytes : List Byte) (start : Int) (s : State) : Host.Outcome State Fault Refusal :=
  if 0 ≤ start ∧ start ≤ 0xFFFF ∧ start + (bytes.length : Int) ≤ 65536 then
    .next { s with mem := s.mem.writeList start.toNat bytes, pc := BitVec.ofInt 16 start, halted := false }
  else .refused .loadOutOfBounds

/-- `reset()` (R141): memory is cleared, and nothing else; it starts no run (R9), so `halted` stays. -/
def clearMemory (s : State) : State := { s with mem := Memory.zero }

/-- The state with bytes placed at `pc`, those whose address exists, and the run going on: the load that
`withFetchWord` stands for (log 18). -/
def placeAtPc (bytes : List Byte) (s : State) : State :=
  { s with mem := s.mem.writeList s.pc.toNat (bytes.take (65536 - s.pc.toNat)), halted := false }

end Sys2Proof.Machine
end

