-- ==== Sys2Proof/Machine/Step.lean ====
section
/-! DEFINITION. The step of the machine, `advance()` under the default opcode map (spec/70_reset_and_hazards.md
R143), and the placement of an instruction for the host's probes. -/

namespace Sys2Proof.Machine

def step (s : State) : Host.Outcome State Fault Refusal := stepWith defaultOpcodeMap s

/-- `s` with an instruction word, numbered as spec/opcode_table.json numbers it, stored at `pc`. -/
def State.withFetchWord (s : State) (nbits w : Nat) : State := placeAtPc (tableBytes nbits w) s

end Sys2Proof.Machine
end

