-- ==== Sys2Proof/Machine/HostOps.lean ====
section
/-! DEFINITION. The host's interface, complete (spec/70_reset_and_hazards.md R151): everything the outside can do,
each action between two steps (R42, R47). -/

namespace Sys2Proof.Machine

/-- What the host can do (R151). -/
inductive HostAction where
  /-- Construct a Processor, with what the spec leaves open at construction (R140). -/
  | construct (l : Launch)
  /-- `reset()` (R141). -/
  | reset
  /-- `load_program(bytes, start)` (R142). -/
  | load (bytes : List Byte) (start : Int)
  /-- `advance()` (R143). -/
  | advance
  /-- Read any state item (R31): no effect. -/
  | inspect
  deriving DecidableEq, Repr

/-- The effect of a host action. -/
def hostAct (h : HostAction) (s : State) : Host.Outcome State Fault Refusal :=
  match h with
  | .construct l => .next (State.construct l)
  | .reset => .next (clearMemory s)
  | .load bytes start => loadProgram bytes start s
  | .advance => step s
  | .inspect => .next s

end Sys2Proof.Machine
end

