-- ==== Sys2Proof/Machine/Pseudocode.lean ====
section
/-! DEFINITION. A second machine, for comparison: the spec's pseudocode taken literally (spec/70_reset_and_hazards.md
R143 and the instruction rules R80 to R112). It has no decoder of operands: each rule fetches its own operand bytes
from memory, in the order the rule lists its statements. The obligations say that `step` equals it. -/

namespace Sys2Proof.Machine

/-- `Fetch16()` (R17). -/
def fetch16 (s : State) : Res (Addr × State) := do
  let (lo, s1) ← fetch8 s
  let (hi, s2) ← fetch8 s1
  pure (joinBytes hi lo, s2)

/-- A rule of the form `WriteReg(r, IMM())` (R93 to R95). -/
def pseudoLoadImm (r : Reg) (s : State) : Res State := do
  let (m, s1) ← fetch8 s
  pure (writeReg r (m.toNat : Int) s1)

/-- A rule of the form `WriteReg(r, MemRead(EA_ZP(), 1))` (R96, R97). -/
def pseudoLoadZp (r : Reg) (s : State) : Res State := do
  let (zp, s1) ← fetch8 s
  let v ← memRead (zp.toNat : Int) s1
  pure (writeReg r (v.toNat : Int) s1)

/-- A rule of the form `MemWrite(EA_ZP(), 1, r)` (R88, R89). -/
def pseudoStoreZp (r : Reg) (s : State) : Res State := do
  let (zp, s1) ← fetch8 s
  memWrite (zp.toNat : Int) (s1.reg r) s1

/-- A rule that steps a zero-page cell (R104, R105). -/
def pseudoStepCell (d : Int) (s : State) : Res State := do
  let (zp, s1) ← fetch8 s
  let v ← memRead (zp.toNat : Int) s1
  memWrite (zp.toNat : Int) (truncByte ((v.toNat : Int) + d)) s1

/-- A rule of the form `Z <- (r = IMM())` (R106 to R108). -/
def pseudoCompareImm (r : Reg) (s : State) : Res State := do
  let (m, s1) ← fetch8 s
  pure { s1 with z := equalFlag (s1.reg r) m }

/-- A branch rule (R110, R111): `taken` is the value of Z it needs. -/
def pseudoBranch (taken : Bool) (s : State) : Res State := do
  let (b, s1) ← fetch8 s
  if s1.z = taken then branchTo (sext8 b) s1 else pure s1

/-- The rule of each operation, from the state after the opcode fetch (`pc = a0 + 1`; template of 41_halt_clc.md). -/
def pseudoRule (o : Op) (s : State) : Res State :=
  match o with
  | .brk => pure { s with halted := true }
  | .clc => pure { s with c := false }
  | .jsr =>
    let ret : Nat := s.pc.toNat + 2
    if ret > 0xFFFF then raise (.addressOutOfRange .returnAddress)
    else do
      let s1 ← push8 (loByte (BitVec.ofNat 16 ret)) s
      let s2 ← push8 (hiByte (BitVec.ofNat 16 ret)) s1
      let (target, s3) ← fetch16 s2
      pure { s3 with pc := target }
  | .jmp => do
    let (target, s1) ← fetch16 s
    pure { s1 with pc := target }
  | .rts => do
    let (hi, s1) ← pop8 s
    let (lo, s2) ← pop8 s1
    pure { s2 with pc := joinBytes hi lo }
  | .adcImm => do
    let (m, s1) ← fetch8 s
    let raw : Nat := s1.a.toNat + m.toNat + carryIn s1.c
    pure (writeReg .a (raw : Int) { s1 with c := carryFlag raw })
  | .staZp => pseudoStoreZp .a s
  | .stxZp => pseudoStoreZp .x s
  | .staAbs => do
    let (ea, s1) ← fetch16 s
    memWrite (ea.toNat : Int) s1.a s1
  | .staAbsY => do
    let (base, s1) ← fetch16 s
    let ea ← indexByY base s1
    memWrite ea s1.a s1
  | .staIndY => do
    let (zp, s1) ← fetch8 s
    let ea ← eaIndY zp s1
    memWrite ea s1.a s1
  | .ldaImm => pseudoLoadImm .a s
  | .ldxImm => pseudoLoadImm .x s
  | .ldyImm => pseudoLoadImm .y s
  | .ldaZp => pseudoLoadZp .a s
  | .ldyZp => pseudoLoadZp .y s
  | .tay => pure (writeReg .y (s.a.toNat : Int) s)
  | .tya => pure (writeReg .a (s.y.toNat : Int) s)
  | .iny => pure (writeReg .y ((s.y.toNat : Int) + 1) s)
  | .dey => pure (writeReg .y ((s.y.toNat : Int) - 1) s)
  | .inx => pure (writeReg .x ((s.x.toNat : Int) + 1) s)
  | .dex => pure (writeReg .x ((s.x.toNat : Int) - 1) s)
  | .incZp => pseudoStepCell 1 s
  | .decZp => pseudoStepCell (-1) s
  | .cmpImm => pseudoCompareImm .a s
  | .cpxImm => pseudoCompareImm .x s
  | .cpyImm => pseudoCompareImm .y s
  | .cmpIndY => do
    let (zp, s1) ← fetch8 s
    let ea ← eaIndY zp s1
    let m ← memRead ea s1
    pure { s1 with z := equalFlag s1.a m }
  | .beq => pseudoBranch true s
  | .bne => pseudoBranch false s
  | .nop => pure s

/-- `advance()` as R143 writes it, under an opcode map, for a run that goes on. -/
def pseudoAdvance (m : OpcodeMap) (s : State) : Host.Outcome State Fault Refusal := deliver do
  let (op, s1) ← fetch8 s
  match lookup m op with
  | none => raise (.unknownOpcode op)
  | some o => pseudoRule o s1

end Sys2Proof.Machine
end

