-- ==== Sys2Proof/Safety.lean ====
section
/-! DEFINITION. The words the statements are written in: the invariant of the machine, when an instruction's bytes
can be fetched, which instructions write which state item (the tables of spec/10_state.md R11, R15, R20 to R24), and
comparisons of outcomes that leave one flag out. -/

namespace Sys2Proof.Safety

open Sys2Proof.Machine

/-- What every step and every host action keeps: memory is in canonical form, and the stack cursor is at or above
`SP_RESET` by an even number of bytes (10_state.md R27: "`SP_RESET <= sp`", "`sp - SP_RESET` is even"). -/
def Inv (s : State) : Prop :=
  s.mem.wf = true ∧ s.spReset.toNat ≤ s.sp.toNat ∧ (s.sp.toNat - s.spReset.toNat) % 2 = 0

/-- All `len` bytes of an instruction at `pc` lie below 0xFFFF, so that every fetch can increment `pc` (R119). -/
abbrev Fits (s : State) (len : Nat) : Prop := s.pc.toNat + len ≤ 0xFFFF

/-- The next state of an outcome, where there is one. -/
def nextOf (o : Host.Outcome State Fault Refusal) : Option State :=
  match o with
  | .next t => some t
  | .fault _ => none
  | .refused _ => none

/-- The fault of an outcome, where there is one. -/
def faultOf (o : Host.Outcome State Fault Refusal) : Option Fault :=
  match o with
  | .next _ => none
  | .fault f => some f
  | .refused _ => none

/-- The outcome with its next state, if any, changed. -/
def mapNext (f : State → State) (o : Host.Outcome State Fault Refusal) : Host.Outcome State Fault Refusal :=
  match o with
  | .next t => .next (f t)
  | .fault r => .fault r
  | .refused r => .refused r

/-- A state with its Carry hidden, to compare states but for C. -/
def hideC (s : State) : State := { s with c := false }

/-- A state with its Zero flag hidden. -/
def hideZ (s : State) : State := { s with z := false }

/-- A state with its Negative flag hidden. -/
def hideN (s : State) : State := { s with n := false }

/-- The operations that write A (the table of R11). -/
def writesA : Op → Bool
  | .ldaImm | .ldaZp | .tya | .adcImm => true
  | _ => false

/-- The operations that write X (R11). -/
def writesX : Op → Bool
  | .ldxImm | .inx | .dex => true
  | _ => false

/-- The operations that write Y (R11). -/
def writesY : Op → Bool
  | .ldyImm | .ldyZp | .tay | .iny | .dey => true
  | _ => false

/-- The operations that write a value register, hence Z and N (R12, R21, R22). -/
def writesReg (o : Op) : Bool := writesA o || writesX o || writesY o

/-- The operations that write Z but no register: the compares (R21 (b)). -/
def isCompare : Op → Bool
  | .cmpImm | .cpxImm | .cpyImm | .cmpIndY => true
  | _ => false

/-- The operations that write C: ADC and CLC (R20). -/
def writesC : Op → Bool
  | .adcImm | .clc => true
  | _ => false

/-- The five stores (R115). -/
def isStore : Op → Bool
  | .staZp | .stxZp | .staAbs | .staAbsY | .staIndY => true
  | _ => false

/-- The operations that write memory: the five stores, INC zp, DEC zp, and JSR's pushes (R32, R115). -/
def writesMem : Op → Bool
  | .staZp | .stxZp | .staAbs | .staAbsY | .staIndY | .incZp | .decZp | .jsr => true
  | _ => false

/-- The cells an instruction writes from a state, by the address functions its meaning uses. -/
def storesTo (i : Instr) (s : State) (a : Int) : Prop :=
  match i with
  | .staZp zp => a = eaZp zp
  | .stxZp zp => a = eaZp zp
  | .staAbs addr => a = eaAbs addr
  | .staAbsY addr => eaAbsY addr s = .ok a
  | .staIndY zp => eaIndY zp s = .ok a
  | .incZp zp => a = eaZp zp
  | .decZp zp => a = eaZp zp
  | .jsr _ => a = (s.sp.toNat : Int) ∨ a = (s.sp.toNat : Int) + 1
  | _ => False

end Sys2Proof.Safety
end

