-- ==== Sys2Proof/Certificates/Slice0/Obligations.lean ====
section
/-! DEFINITION. The statements for the provers, from the numbered rules of spec/. A statement about every state
holds in every state, reached or not, under the premises it names. -/

open Sys2Proof Sys2Proof.Machine Sys2Proof.Safety

/-! ## Encoding and decoding -/

/-- R51, R52, R55: words written out from the table, one per format and family, decode to the instruction they
stand for; 0xA9 and 0x85 are the source's own bytes, the others the default map's (log 1). -/
def Obligations.SampleWordsDecode : Prop :=
  decode [0xA9, 0x05, 0x85, 0x10] = .ok (.ldaImm 0x05) ∧
  decode [0x85, 0x10] = .ok (.staZp 0x10) ∧
  decode [0x20, 0x04, 0x06] = .ok (.jsr 0x0604) ∧
  decode [0x69, 0x20] = .ok (.adcImm 0x20) ∧
  decode [0x99, 0xFE, 0x02] = .ok (.staAbsY 0x02FE) ∧
  decode [0xD1, 0x10] = .ok (.cmpIndY 0x10) ∧
  decode [0xD0, 0xFA] = .ok (.bne (-6)) ∧
  decode [0xE8] = .ok .inx ∧
  decode [0x00] = .ok .brk ∧
  decode [0x02, 0x00, 0x00] = .error (.unknownOpcode 0x02)

/-- R53, R51, R52: under every one-to-one opcode map, every well-formed instruction is read back from its bytes,
whatever follows them. -/
def Obligations.DecodeInvertsEncode : Prop :=
  ∀ (m : OpcodeMap), (∀ p q : Op, m p = m q → p = q) →
    ∀ (i : Instr) (rest : List Byte), i.wellFormed = true → decodeWith m (encodeWith m i ++ rest) = .ok i

/-- R50, R52, R57: the other direction, under every opcode map: what is decoded is well formed, and the bytes
began with exactly its encoding, so no instruction has a second encoding. -/
def Obligations.DecodedBytesAreTheEncoding : Prop :=
  ∀ (m : OpcodeMap) (bs : List Byte) (i : Instr), decodeWith m bs = .ok i →
    i.wellFormed = true ∧ (encodeWith m i).length = i.length ∧ ∃ rest, bs = encodeWith m i ++ rest

/-- R54, D1: the default map is one-to-one, has the source's two values, and leaves 0x02 out. -/
def Obligations.DefaultOpcodeMapIsLegal : Prop := OpcodeMap.Legal defaultOpcodeMap

/-- R56: the 225 byte values outside the map are illegal, 0x02 among them, and a step that fetches one as an opcode
faults with that byte; as operand bytes all values are legal. -/
def Obligations.IllegalOpcodesFault : Prop :=
  ((List.range 256).filter (fun k => (lookup defaultOpcodeMap (BitVec.ofNat 8 k)).isNone)).length = 225 ∧
  lookup defaultOpcodeMap 0x02 = none ∧
  (∀ (s : State) (b : Byte), s.halted = false → Fits s 1 → s.mem.read s.pc.toNat = b →
    (∀ o : Op, defaultOpcodeMap o ≠ b) → step s = .fault (.unknownOpcode b)) ∧
  (∀ (o : Op) (b1 b2 : Byte), ∃ i, i.op = o ∧ decode [defaultOpcodeMap o, b1, b2] = .ok i)

/-- R68, R113: a branch whose offset byte the assembler computed for a target in reach lands on the target. -/
def Obligations.BranchFixupRoundTrip : Prop :=
  ∀ (s : State) (target : Addr), Fits s 2 →
    -128 ≤ branchOffset s.pc target → branchOffset s.pc target ≤ 127 →
    (decode (encode (.beq (branchOffset s.pc target))) = .ok (.beq (branchOffset s.pc target)) ∧
      (s.z = true → exec (.beq (branchOffset s.pc target)) s = .next { s with pc := target })) ∧
    (decode (encode (.bne (branchOffset s.pc target))) = .ok (.bne (branchOffset s.pc target)) ∧
      (s.z = false → exec (.bne (branchOffset s.pc target)) s = .next { s with pc := target }))

/-! ## The step -/

/-- R143: when the bytes at `pc` decode to an instruction, the step is its meaning at that state. -/
def Obligations.StepRunsDecodedInstruction : Prop :=
  ∀ (s : State) (i : Instr), s.halted = false → decode (fetchWindow s) = .ok i → step s = exec i s

/-- R143 and the pseudocode of R80 to R112: under every opcode map and in every state of a run that goes on, the
step, which decodes the whole instruction first, equals the machine that fetches each operand byte where its rule
does, JSR's after its pushes. -/
def Obligations.StepEqualsPseudocode : Prop :=
  ∀ (m : OpcodeMap) (s : State), s.halted = false → stepWith m s = pseudoAdvance m s

/-- R120, R143: a step that answers a next state returned Halt exactly if the opcode at `pc` is BRK's. That Halt is
held in the field `halted` is the model's choice (log 15). -/
def Obligations.HaltExactlyAtBrk : Prop :=
  ∀ s t : State, step s = .next t →
    (t.halted = true ↔ lookup defaultOpcodeMap (s.mem.read s.pc.toNat) = some .brk)

/-- D15, R146, R120: no instruction is refused anywhere, and a step is refused exactly after a Halt. That the model
gives no step after a Halt is the spec's decision D15 and the model's choice of log 15. -/
def Obligations.OnlyHaltedRunsAreRefused : Prop :=
  (∀ (i : Instr) (s : State) (r : Refusal), exec i s ≠ .refused r) ∧
  (∀ (s : State) (r : Refusal), step s = .refused r ↔ s.halted = true ∧ r = .stepAfterHalt)

/-- R119, R127, R82: an instruction with a byte at 0xFFFF or beyond faults at that fetch, both for the meaning and
for the step, operands that do not exist included; a byte at 0xFFFF is not even looked up; JSR checks its return
address before it fetches its operand. -/
def Obligations.CommonFetchFault : Prop :=
  (∀ (i : Instr) (s : State), i.op ≠ .jsr → 0xFFFF < s.pc.toNat + i.length →
    exec i s = .fault (.addressOutOfRange .pcIncrement)) ∧
  (∀ (target : Addr) (s : State), s.pc = 0xFFFF#16 →
    exec (.jsr target) s = .fault (.addressOutOfRange .pcIncrement)) ∧
  (∀ s : State, s.halted = false → s.pc = 0xFFFF#16 → step s = .fault (.addressOutOfRange .pcIncrement)) ∧
  (∀ (s : State) (o : Op), s.halted = false → lookup defaultOpcodeMap (s.mem.read s.pc.toNat) = some o →
    s.pc ≠ 0xFFFF#16 → 0xFFFF < s.pc.toNat + o.format.length →
    step s = .fault (.addressOutOfRange (if o = .jsr then .returnAddress else .pcIncrement)))

/-- R80 (3), R54: with the default map (log 1) a zero byte at `pc` halts the run and writes nothing. -/
def Obligations.ZeroByteHalts : Prop :=
  ∀ s : State, s.halted = false → Fits s 1 → s.mem.read s.pc.toNat = 0x00 →
    step s = .next { s with pc := s.pc + 1, halted := true }

/-! ## What each instruction does -/

/-- R12, R11: what the register-write path stores and which flags it sets, that it touches nothing else, and that Z
and N describe the register after every instruction that writes one. For a negative value the modulus is the floored
one of R5, the spec's decision D11 (log 24), and both flags are written both ways, its decision D18. -/
def Obligations.RegisterWritePath : Prop :=
  (∀ (r : Reg) (v : Int) (s : State),
    (((writeReg r v s).reg r).toNat : Int) = v % 256 ∧
    (writeReg r v s).z = decide (v % 256 = 0) ∧
    (writeReg r v s).n = decide (v % 256 > 0x7F) ∧
    (writeReg r v s).c = s.c ∧ (writeReg r v s).pc = s.pc ∧ (writeReg r v s).sp = s.sp ∧
    (writeReg r v s).mem = s.mem ∧ (∀ q : Reg, q ≠ r → (writeReg r v s).reg q = s.reg q)) ∧
  (∀ (i : Instr) (s t : State), exec i s = .next t →
    (writesA i.op = true → t.z = decide (t.a.toNat = 0) ∧ t.n = decide (t.a.toNat > 0x7F)) ∧
    (writesX i.op = true → t.z = decide (t.x.toNat = 0) ∧ t.n = decide (t.x.toNat > 0x7F)) ∧
    (writesY i.op = true → t.z = decide (t.y.toNat = 0) ∧ t.n = decide (t.y.toNat > 0x7F)))

/-- R80: BRK changes nothing but `pc`, and the run is over. That Halt is recorded in the field `halted` is the
model's choice (log 15), the opcode byte the default map's (log 1). -/
def Obligations.BrkHalts : Prop :=
  encode .brk = [0x00] ∧
  ∀ s : State, Fits s 1 → exec .brk s = .next { s with pc := s.pc + 1, halted := true }

/-- R81 (opcode byte: log 1). -/
def Obligations.ClcClearsCarry : Prop :=
  encode .clc = [0x18] ∧
  ∀ s : State, Fits s 1 → exec .clc s = .next { s with c := false, pc := s.pc + 1 }

/-- R82: the return address `a0 + 3` at `sp` and `sp + 1`, low byte first, then `pc` at the operand, which is read
after the pushes (D14, log 14); and when JSR faults (D3, D6: log 3, log 6; opcode byte: log 1). -/
def Obligations.JsrPushesAndJumps : Prop :=
  (∀ target : Addr, encode (.jsr target) =
    [0x20, BitVec.ofNat 8 (target.toNat % 256), BitVec.ofNat 8 (target.toNat / 256)]) ∧
  (∀ (target : Addr) (s : State), Fits s 3 → s.sp.toNat ≤ 0xFFFD →
    ∃ t, exec (.jsr target) s = .next t ∧
      t = { s with pc := t.pc, sp := s.sp + 2, mem := t.mem } ∧
      t.mem.read s.sp.toNat = BitVec.ofNat 8 ((s.pc.toNat + 3) % 256) ∧
      t.mem.read (s.sp.toNat + 1) = BitVec.ofNat 8 ((s.pc.toNat + 3) / 256) ∧
      (∀ a : Nat, a ≠ s.sp.toNat → a ≠ s.sp.toNat + 1 → t.mem.read a = s.mem.read a) ∧
      (s.sp.toNat + 1 < s.pc.toNat + 1 ∨ s.pc.toNat + 2 < s.sp.toNat → t.pc = target) ∧
      (s.mem.read (s.pc.toNat + 1) = BitVec.ofNat 8 (target.toNat % 256) →
        s.mem.read (s.pc.toNat + 2) = BitVec.ofNat 8 (target.toNat / 256) →
        t.pc.toNat = (t.mem.read (s.pc.toNat + 2)).toNat * 256 + (t.mem.read (s.pc.toNat + 1)).toNat)) ∧
  (∀ (target : Addr) (s : State), 0xFFFD ≤ s.pc.toNat → s.pc ≠ 0xFFFF#16 →
    exec (.jsr target) s = .fault (.addressOutOfRange .returnAddress)) ∧
  (∀ (target : Addr) (s : State), Fits s 3 → 0xFFFE ≤ s.sp.toNat →
    exec (.jsr target) s = .fault .stackOverflow)

/-- R83 (opcode byte: log 1). -/
def Obligations.JmpSetsPc : Prop :=
  (∀ target : Addr, encode (.jmp target) =
    [0x4C, BitVec.ofNat 8 (target.toNat % 256), BitVec.ofNat 8 (target.toNat / 256)]) ∧
  ∀ (target : Addr) (s : State), Fits s 3 → exec (.jmp target) s = .next { s with pc := target }

/-- R84: `pc` is the two bytes below `sp`, high byte at `sp - 1`, nothing added; `sp` falls by two, memory stays;
and RTS faults when a pop finds the stack empty (R26, D6: log 6; opcode byte: log 1). -/
def Obligations.RtsPopsPc : Prop :=
  encode .rts = [0x60] ∧
  (∀ s : State, Fits s 1 → 2 ≤ s.sp.toNat → s.sp ≠ s.spReset → s.sp ≠ s.spReset + 1 →
    exec .rts s = .next { s with
      pc := BitVec.ofNat 16 ((s.mem.read (s.sp.toNat - 1)).toNat * 256 + (s.mem.read (s.sp.toNat - 2)).toNat),
      sp := s.sp - 2 }) ∧
  (∀ s : State, Fits s 1 → s.sp = s.spReset → exec .rts s = .fault .stackUnderflow) ∧
  (∀ s : State, Fits s 1 → s.sp.toNat = s.spReset.toNat + 1 → exec .rts s = .fault .stackUnderflow)

/-- R79, R82, R84: an RTS that finds `sp` and the two saved bytes as a JSR left them returns to the instruction after
that JSR and restores `sp`. -/
def Obligations.ReturnFollowsCall : Prop :=
  ∀ (target : Addr) (s t u : State), s.spReset.toNat ≤ s.sp.toNat → exec (.jsr target) s = .next t →
    Fits u 1 → u.sp = t.sp → u.spReset = s.spReset →
    u.mem.read s.sp.toNat = t.mem.read s.sp.toNat →
    u.mem.read (s.sp.toNat + 1) = t.mem.read (s.sp.toNat + 1) →
    exec .rts u = .next { u with pc := s.pc + 3, sp := s.sp }

/-- R85 (opcode byte: log 1). -/
def Obligations.AdcAddsWithCarry : Prop :=
  (∀ imm : Byte, encode (.adcImm imm) = [0x69, imm]) ∧
  ∀ (imm : Byte) (s : State), Fits s 2 →
    exec (.adcImm imm) s =
      let raw := s.a.toNat + imm.toNat + (if s.c then 1 else 0)
      .next { s with
        a := BitVec.ofNat 8 (raw % 256), c := decide (raw > 255),
        z := decide (raw % 256 = 0), n := decide (raw % 256 > 0x7F), pc := s.pc + 2 }

/-- R87, R86: two ADCs, the first with C clear, add 16-bit numbers byte by byte; whatever runs between them need
only keep C and bring the high byte into A. -/
def Obligations.AdcChainAddsWords : Prop :=
  ∀ (p q : Addr) (s : State), Fits s 2 → s.a = BitVec.ofNat 8 (p.toNat % 256) → s.c = false →
    ∃ t, exec (.adcImm (BitVec.ofNat 8 (q.toNat % 256))) s = .next t ∧
      t.a.toNat = (p.toNat + q.toNat) % 256 ∧
      ∀ u : State, Fits u 2 → u.a = BitVec.ofNat 8 (p.toNat / 256) → u.c = t.c →
        ∃ w, exec (.adcImm (BitVec.ofNat 8 (q.toNat / 256))) u = .next w ∧
          w.a.toNat = (p.toNat + q.toNat) / 256 % 256 ∧ w.c = decide (p.toNat + q.toNat > 0xFFFF)

/-- R88, whose opcode byte is the source's own. -/
def Obligations.StaZeroPage : Prop :=
  (∀ zp : Byte, encode (.staZp zp) = [0x85, zp]) ∧
  ∀ (zp : Byte) (s : State), Fits s 2 →
    exec (.staZp zp) s = .next { s with mem := s.mem.write zp.toNat s.a, pc := s.pc + 2 }

/-- R89, R90: the other two stores whose address the operand alone gives (opcode bytes: log 1). -/
def Obligations.PlainStores : Prop :=
  (∀ zp : Byte, encode (.stxZp zp) = [0x86, zp]) ∧
  (∀ addr : Addr, encode (.staAbs addr) =
    [0x8D, BitVec.ofNat 8 (addr.toNat % 256), BitVec.ofNat 8 (addr.toNat / 256)]) ∧
  (∀ (zp : Byte) (s : State), Fits s 2 →
    exec (.stxZp zp) s = .next { s with mem := s.mem.write zp.toNat s.x, pc := s.pc + 2 }) ∧
  (∀ (addr : Addr) (s : State), Fits s 3 →
    exec (.staAbs addr) s = .next { s with mem := s.mem.write addr.toNat s.a, pc := s.pc + 3 })

/-- R91, R78: the fault above 0xFFFF is the spec's decision D3 (log 3; opcode byte: log 1). -/
def Obligations.StaAbsYStoresOrFaults : Prop :=
  (∀ addr : Addr, encode (.staAbsY addr) =
    [0x99, BitVec.ofNat 8 (addr.toNat % 256), BitVec.ofNat 8 (addr.toNat / 256)]) ∧
  (∀ (addr : Addr) (s : State), Fits s 3 → addr.toNat + s.y.toNat ≤ 0xFFFF →
    exec (.staAbsY addr) s =
      .next { s with mem := s.mem.write (addr.toNat + s.y.toNat) s.a, pc := s.pc + 3 }) ∧
  (∀ (addr : Addr) (s : State), Fits s 3 → 0xFFFF < addr.toNat + s.y.toNat →
    exec (.staAbsY addr) s = .fault (.addressOutOfRange .dataAddress))

/-- R92, R75: the pointer's low byte is at `zp`, its high byte at `zp + 1` (D7, log 7; faults: D3, D8, log 3, log 8;
opcode byte: log 1). -/
def Obligations.StaIndYStoresOrFaults : Prop :=
  (∀ zp : Byte, encode (.staIndY zp) = [0x91, zp]) ∧
  (∀ (zp : Byte) (s : State), Fits s 2 → zp ≠ 0xFF#8 →
    let ea := (s.mem.read (zp.toNat + 1)).toNat * 256 + (s.mem.read zp.toNat).toNat + s.y.toNat
    (ea ≤ 0xFFFF → exec (.staIndY zp) s = .next { s with mem := s.mem.write ea s.a, pc := s.pc + 2 }) ∧
    (0xFFFF < ea → exec (.staIndY zp) s = .fault (.addressOutOfRange .dataAddress))) ∧
  (∀ s : State, Fits s 2 → s.indyFF = .fault → exec (.staIndY 0xFF) s = .fault (.pointerStraddle 0xFF))

/-- R109, R118, R75: A is the register compared (D12, log 12), the pointer is little-endian (D7, log 7), the faults
are decisions D3 and D8 (log 3, log 8); opcode byte: log 1. -/
def Obligations.CmpIndYComparesOrFaults : Prop :=
  (∀ zp : Byte, encode (.cmpIndY zp) = [0xD1, zp]) ∧
  (∀ (zp : Byte) (s : State), Fits s 2 → zp ≠ 0xFF#8 →
    let ea := (s.mem.read (zp.toNat + 1)).toNat * 256 + (s.mem.read zp.toNat).toNat + s.y.toNat
    (ea ≤ 0xFFFF →
      exec (.cmpIndY zp) s = .next { s with z := decide (s.a = s.mem.read ea), pc := s.pc + 2 }) ∧
    (0xFFFF < ea → exec (.cmpIndY zp) s = .fault (.addressOutOfRange .dataAddress))) ∧
  (∀ s : State, Fits s 2 → s.indyFF = .fault → exec (.cmpIndY 0xFF) s = .fault (.pointerStraddle 0xFF))

/-- R76, D8: the two other settings of the parameter INDY_FF, where the pointer's high byte comes from 0x0100 or
from 0x0000. The settings are the model's parameter (log 8), not a claim about the repository. -/
def Obligations.StraddlingPointerByParameter : Prop :=
  ∀ (s : State) (hiAt : Nat), Fits s 2 →
    (s.indyFF = .linear ∧ hiAt = 0x0100) ∨ (s.indyFF = .wrap ∧ hiAt = 0x0000) →
    let ea := (s.mem.read hiAt).toNat * 256 + (s.mem.read 0xFF).toNat + s.y.toNat
    (ea ≤ 0xFFFF →
      exec (.staIndY 0xFF) s = .next { s with mem := s.mem.write ea s.a, pc := s.pc + 2 } ∧
      exec (.cmpIndY 0xFF) s = .next { s with z := decide (s.a = s.mem.read ea), pc := s.pc + 2 }) ∧
    (0xFFFF < ea →
      exec (.staIndY 0xFF) s = .fault (.addressOutOfRange .dataAddress) ∧
      exec (.cmpIndY 0xFF) s = .fault (.addressOutOfRange .dataAddress))

/-- R93, whose opcode byte is the source's own. -/
def Obligations.LdaImmediate : Prop :=
  (∀ v : Byte, encode (.ldaImm v) = [0xA9, v]) ∧
  ∀ (v : Byte) (s : State), Fits s 2 →
    exec (.ldaImm v) s = .next { s with a := v, z := decide (v = 0#8), n := decide (0x7F < v.toNat), pc := s.pc + 2 }

/-- R94, R95 (opcode bytes: log 1). -/
def Obligations.ImmediateLoads : Prop :=
  (∀ v : Byte, encode (.ldxImm v) = [0xA2, v] ∧ encode (.ldyImm v) = [0xA0, v]) ∧
  ∀ (v : Byte) (s : State), Fits s 2 →
    exec (.ldxImm v) s = .next { s with x := v, z := decide (v = 0#8), n := decide (0x7F < v.toNat), pc := s.pc + 2 } ∧
    exec (.ldyImm v) s = .next { s with y := v, z := decide (v = 0#8), n := decide (0x7F < v.toNat), pc := s.pc + 2 }

/-- R96, R97 (opcode bytes: log 1). -/
def Obligations.ZeroPageLoads : Prop :=
  (∀ zp : Byte, encode (.ldaZp zp) = [0xA5, zp] ∧ encode (.ldyZp zp) = [0xA4, zp]) ∧
  ∀ (zp : Byte) (s : State), Fits s 2 →
    let v := s.mem.read zp.toNat
    exec (.ldaZp zp) s = .next { s with a := v, z := decide (v = 0#8), n := decide (0x7F < v.toNat), pc := s.pc + 2 } ∧
    exec (.ldyZp zp) s = .next { s with y := v, z := decide (v = 0#8), n := decide (0x7F < v.toNat), pc := s.pc + 2 }

/-- R98, R99 (opcode bytes: log 1). -/
def Obligations.TransfersCopy : Prop :=
  encode .tay = [0xA8] ∧ encode .tya = [0x98] ∧
  ∀ s : State, Fits s 1 →
    exec .tay s =
      .next { s with y := s.a, z := decide (s.a = 0#8), n := decide (0x7F < s.a.toNat), pc := s.pc + 1 } ∧
    exec .tya s =
      .next { s with a := s.y, z := decide (s.y = 0#8), n := decide (0x7F < s.y.toNat), pc := s.pc + 1 }

/-- R100 to R103: the result wraps, Z is set at the wrap to zero, N from bit 7 of the result, C stays.
That DEY and DEX at 0x00 give 0xFF with N true is the spec's decision D11, the floored modulus (log 24); opcode bytes:
log 1. -/
def Obligations.RegisterSteps : Prop :=
  encode .iny = [0xC8] ∧ encode .dey = [0x88] ∧ encode .inx = [0xE8] ∧ encode .dex = [0xCA] ∧
  ∀ s : State, Fits s 1 →
    exec .iny s = .next { s with
      y := s.y + 1, z := decide (s.y = 0xFF#8), n := decide (0x7F ≤ s.y.toNat ∧ s.y.toNat ≤ 0xFE), pc := s.pc + 1 } ∧
    exec .dey s = .next { s with
      y := s.y - 1, z := decide (s.y = 1#8), n := decide (s.y = 0#8 ∨ 0x80 < s.y.toNat), pc := s.pc + 1 } ∧
    exec .inx s = .next { s with
      x := s.x + 1, z := decide (s.x = 0xFF#8), n := decide (0x7F ≤ s.x.toNat ∧ s.x.toNat ≤ 0xFE), pc := s.pc + 1 } ∧
    exec .dex s = .next { s with
      x := s.x - 1, z := decide (s.x = 1#8), n := decide (s.x = 0#8 ∨ 0x80 < s.x.toNat), pc := s.pc + 1 }

/-- R104, R105: the cell wraps modulo 256 (D10, log 10) and no flag is written (opcode bytes: log 1). -/
def Obligations.MemorySteps : Prop :=
  (∀ zp : Byte, encode (.incZp zp) = [0xE6, zp] ∧ encode (.decZp zp) = [0xC6, zp]) ∧
  ∀ (zp : Byte) (s : State), Fits s 2 →
    exec (.incZp zp) s =
      .next { s with mem := s.mem.write zp.toNat (s.mem.read zp.toNat + 1), pc := s.pc + 2 } ∧
    exec (.decZp zp) s =
      .next { s with mem := s.mem.write zp.toNat (s.mem.read zp.toNat - 1), pc := s.pc + 2 }

/-- R106, R107, R108, R118: Z only, both ways (opcode bytes: log 1). -/
def Obligations.ImmediateCompares : Prop :=
  (∀ v : Byte, encode (.cmpImm v) = [0xC9, v] ∧ encode (.cpxImm v) = [0xE0, v] ∧ encode (.cpyImm v) = [0xC0, v]) ∧
  ∀ (v : Byte) (s : State), Fits s 2 →
    exec (.cmpImm v) s = .next { s with z := decide (s.a = v), pc := s.pc + 2 } ∧
    exec (.cpxImm v) s = .next { s with z := decide (s.x = v), pc := s.pc + 2 } ∧
    exec (.cpyImm v) s = .next { s with z := decide (s.y = v), pc := s.pc + 2 }

/-- R110, R111, R113: taken, not taken, and the target out of range; the offset byte is `off` modulo 256
(the base of the target is decision D9, log 9; the fault D3, log 3; opcode bytes: log 1). -/
def Obligations.BranchesOnZero : Prop :=
  (∀ b : Byte,
    decode [0xF0, b] = .ok (.beq (if b.toNat ≤ 127 then (b.toNat : Int) else (b.toNat : Int) - 256)) ∧
    decode [0xD0, b] = .ok (.bne (if b.toNat ≤ 127 then (b.toNat : Int) else (b.toNat : Int) - 256))) ∧
  ∀ (off : Int) (s : State), Fits s 2 →
    let t : Int := (s.pc.toNat : Int) + 2 + off
    (s.z = true → 0 ≤ t → t ≤ 0xFFFF →
      exec (.beq off) s = .next { s with pc := BitVec.ofInt 16 t }) ∧
    (s.z = true → t < 0 ∨ 0xFFFF < t → exec (.beq off) s = .fault (.addressOutOfRange .branchTarget)) ∧
    (s.z = false → exec (.beq off) s = .next { s with pc := s.pc + 2 }) ∧
    (s.z = false → 0 ≤ t → t ≤ 0xFFFF →
      exec (.bne off) s = .next { s with pc := BitVec.ofInt 16 t }) ∧
    (s.z = false → t < 0 ∨ 0xFFFF < t → exec (.bne off) s = .fault (.addressOutOfRange .branchTarget)) ∧
    (s.z = true → exec (.bne off) s = .next { s with pc := s.pc + 2 })

/-- R112 (opcode byte: log 1). -/
def Obligations.NopOnlyAdvances : Prop :=
  encode .nop = [0xEA] ∧ ∀ s : State, Fits s 1 → exec .nop s = .next { s with pc := s.pc + 1 }

/-! ## What instructions leave unchanged -/

/-- R11, R13: each value register changes only by the instructions the table of R11 names as its writers. -/
def Obligations.RegisterFrames : Prop :=
  ∀ (i : Instr) (s t : State), exec i s = .next t →
    (writesA i.op = false → t.a = s.a) ∧ (writesX i.op = false → t.x = s.x) ∧ (writesY i.op = false → t.y = s.y)

/-- R23, R117: the asymmetry of flags: compares write only Z, memory increments and decrements write no flag, and the
register instructions of 46_transfers_incdec.md go through the register-write path; none of them touches C. -/
def Obligations.FlagAsymmetry : Prop :=
  ∀ (i : Instr) (s t : State), exec i s = .next t →
    (isCompare i.op = true → t = { s with z := t.z, pc := t.pc }) ∧
    (i.op = .incZp ∨ i.op = .decZp → t = { s with mem := t.mem, pc := t.pc }) ∧
    (i = .tay → t = writeReg .y s.a.toNat { s with pc := t.pc }) ∧
    (i = .tya → t = writeReg .a s.y.toNat { s with pc := t.pc }) ∧
    (i = .iny → t = writeReg .y ((s.y.toNat : Int) + 1) { s with pc := t.pc }) ∧
    (i = .dey → t = writeReg .y ((s.y.toNat : Int) - 1) { s with pc := t.pc }) ∧
    (i = .inx → t = writeReg .x ((s.x.toNat : Int) + 1) { s with pc := t.pc }) ∧
    (i = .dex → t = writeReg .x ((s.x.toNat : Int) - 1) { s with pc := t.pc })

/-- R115: a store writes one byte, at the address its meaning computes, and no flag and no register; no cell is out of
its reach, its own program's bytes included. -/
def Obligations.StoresWriteOneByte : Prop :=
  (∀ (i : Instr) (s t : State), isStore i.op = true → exec i s = .next t →
    ∃ ea : Int, storesTo i s ea ∧ (∀ other : Int, storesTo i s other → other = ea) ∧ 0 ≤ ea ∧ ea ≤ 0xFFFF ∧
      t = { s with mem := s.mem.write ea.toNat (if i.op = .stxZp then s.x else s.a), pc := t.pc }) ∧
  (∀ (addr : Addr) (s : State), Fits s 3 →
    ∃ t, exec (.staAbs addr) s = .next t ∧ t.mem.read addr.toNat = s.a)

/-- R20: C is written by ADC and CLC only, with the values of R85 and R81, and read by ADC only: any other
instruction has the same outcome, but for C, whatever C is. -/
def Obligations.CarryDiscipline : Prop :=
  (∀ (i : Instr) (s t : State), exec i s = .next t →
    (writesC i.op = false → t.c = s.c) ∧ (i = .clc → t.c = false) ∧
    (∀ imm, i = .adcImm imm → t.c = decide (s.a.toNat + imm.toNat + (if s.c then 1 else 0) > 255))) ∧
  (∀ (i : Instr) (s : State) (b : Bool), i.op ≠ .adcImm →
    mapNext hideC (exec i { s with c := b }) = mapNext hideC (exec i s))

/-- R21: Z is written by register writes, from the byte written, and by the compares, from the equality (that CMP
(zp),Y compares A is decision D12, log 12); nothing else writes it, and only BEQ and BNE read it. -/
def Obligations.ZeroFlagDiscipline : Prop :=
  (∀ (i : Instr) (s t : State), exec i s = .next t →
    (writesReg i.op = false → isCompare i.op = false → t.z = s.z) ∧
    (writesA i.op = true → t.z = decide (t.a = 0#8)) ∧
    (writesX i.op = true → t.z = decide (t.x = 0#8)) ∧
    (writesY i.op = true → t.z = decide (t.y = 0#8)) ∧
    (∀ v, i = .cmpImm v → t.z = decide (s.a = v)) ∧
    (∀ v, i = .cpxImm v → t.z = decide (s.x = v)) ∧
    (∀ v, i = .cpyImm v → t.z = decide (s.y = v)) ∧
    (∀ zp ea, i = .cmpIndY zp → eaIndY zp s = .ok ea → t.z = decide (s.a = s.mem.read ea.toNat))) ∧
  (∀ (i : Instr) (s : State) (b : Bool), i.op ≠ .beq → i.op ≠ .bne →
    mapNext hideZ (exec i { s with z := b }) = mapNext hideZ (exec i s))

/-- R22: N is written by register writes only, from bit 7 of the byte written, and no instruction reads it. -/
def Obligations.NegativeFlagDiscipline : Prop :=
  (∀ (i : Instr) (s t : State), exec i s = .next t →
    (writesReg i.op = false → t.n = s.n) ∧
    (writesA i.op = true → t.n = decide (t.a.toNat > 0x7F)) ∧
    (writesX i.op = true → t.n = decide (t.x.toNat > 0x7F)) ∧
    (writesY i.op = true → t.n = decide (t.y.toNat > 0x7F))) ∧
  (∀ (i : Instr) (s : State) (b : Bool), mapNext hideN (exec i { s with n := b }) = mapNext hideN (exec i s))

/-- R24, R25, R26: `sp` moves only by JSR, up by two, and by RTS, down by two. -/
def Obligations.StackPointerMovesByCallAndReturn : Prop :=
  ∀ (i : Instr) (s t : State), exec i s = .next t →
    (i.op ≠ .jsr → i.op ≠ .rts → t.sp = s.sp) ∧
    (i.op = .jsr → t.sp.toNat = s.sp.toNat + 2) ∧
    (i.op = .rts → t.sp.toNat + 2 = s.sp.toNat)

/-- R32, R34, R115: an instruction that is no store, no INC or DEC and no JSR leaves every byte of memory. -/
def Obligations.MemoryFrameOfNonStores : Prop :=
  ∀ (i : Instr) (s t : State), exec i s = .next t → writesMem i.op = false →
    ∀ a : Nat, t.mem.read a = s.mem.read a

/-- R34, R115, R104, R105, R82: an instruction that writes memory leaves every byte but those at the addresses its
meaning computes. -/
def Obligations.MemoryFrameOfStores : Prop :=
  ∀ (i : Instr) (s t : State), exec i s = .next t → writesMem i.op = true →
    ∀ a : Nat, ¬ storesTo i s (a : Int) → t.mem.read a = s.mem.read a

/-- R15: where `pc` is after each instruction; JSR's entry for operands the pushes do not overwrite (R82, D14). -/
def Obligations.PcAfterEachInstruction : Prop :=
  ∀ (i : Instr) (s t : State), exec i s = .next t →
    (∀ a, i = .jmp a → t.pc = a) ∧
    (∀ a, i = .jsr a → s.sp.toNat + 1 < s.pc.toNat + 1 ∨ s.pc.toNat + 2 < s.sp.toNat → t.pc = a) ∧
    (i = .rts →
      t.pc.toNat = (s.mem.read (s.sp.toNat - 1)).toNat * 256 + (s.mem.read (s.sp.toNat - 2)).toNat) ∧
    (∀ off, i = .beq off → (t.pc.toNat : Int) = (s.pc.toNat : Int) + 2 + (if s.z then off else 0)) ∧
    (∀ off, i = .bne off → (t.pc.toNat : Int) = (s.pc.toNat : Int) + 2 + (if s.z then 0 else off)) ∧
    (i.op ≠ .jmp → i.op ≠ .jsr → i.op ≠ .rts → i.op ≠ .beq → i.op ≠ .bne → t.pc.toNat = s.pc.toNat + i.length)

/-- R4, R10: no instruction changes a parameter of the machine; and BRK alone ends the run, which is the model's own
record (log 15). -/
def Obligations.ParametersAreConstant : Prop :=
  ∀ (i : Instr) (s t : State), exec i s = .next t →
    t.spReset = s.spReset ∧ t.indyFF = s.indyFF ∧ t.halted = (decide (i = .brk) || s.halted)

/-- R123, R124, R125: which fault can come from which instruction, and when; the premise is part of the invariant. -/
def Obligations.FaultsHaveTheirCauses : Prop :=
  ∀ (i : Instr) (s : State) (f : Fault), s.spReset.toNat ≤ s.sp.toNat → exec i s = .fault f →
    match f with
    | .unknownOpcode _ => False
    | .addressOutOfRange .pcIncrement => 0xFFFF < s.pc.toNat + i.length
    | .addressOutOfRange .dataAddress => i.op = .staAbsY ∨ i.op = .staIndY ∨ i.op = .cmpIndY
    | .addressOutOfRange .branchTarget => (i.op = .beq ∧ s.z = true) ∨ (i.op = .bne ∧ s.z = false)
    | .addressOutOfRange .returnAddress => i.op = .jsr ∧ 0xFFFD ≤ s.pc.toNat
    | .stackOverflow => i.op = .jsr ∧ 0xFFFE ≤ s.sp.toNat
    | .stackUnderflow => i.op = .rts ∧ s.sp.toNat ≤ s.spReset.toNat + 1
    | .pointerStraddle zp => zp = 0xFF#8 ∧ s.indyFF = .fault ∧ (i = .staIndY zp ∨ i = .cmpIndY zp)

/-! ## Memory and the host -/

/-- R33, R34, R35: a read after a write, a write's frame, and the fault outside 0..0xFFFF. -/
def Obligations.MemoryReadsWhatWasWritten : Prop :=
  (∀ (addr : Int) (v : Byte) (s : State), 0 ≤ addr → addr ≤ 0xFFFF →
    ∃ t, memWrite addr v s = .ok t ∧ memRead addr t = .ok v ∧
      (∀ b : Int, b ≠ addr → memRead b t = memRead b s) ∧ t = { s with mem := t.mem } ∧
      (s.mem.wf = true → t.mem.wf = true)) ∧
  (∀ (addr : Int) (v : Byte) (s : State), addr < 0 ∨ 0xFFFF < addr →
    memWrite addr v s = .error (.addressOutOfRange .dataAddress) ∧
    memRead addr s = .error (.addressOutOfRange .dataAddress))

/-- R32: two memories in canonical form that agree at all 65,536 addresses are the same data. -/
def Obligations.CanonicalMemoriesAreExtensional : Prop :=
  ∀ m m' : Memory, m.wf = true → m'.wf = true → (∀ a : Nat, a < 65536 → m.read a = m'.read a) → m = m'

/-- R45, R42: the byte a store writes is the byte the very next opcode fetch at that address reads, and a stored
opcode of a one-byte instruction is executed by the very next step. -/
def Obligations.FetchSeesTheStore : Prop :=
  ∀ (addr : Addr) (s t : State), exec (.staAbs addr) s = .next t → t.pc = addr → addr ≠ 0xFFFF#16 →
    t.halted = false →
    (∃ u, fetch8 t = .ok (s.a, u)) ∧
    ((∀ o : Op, defaultOpcodeMap o ≠ s.a) → step t = .fault (.unknownOpcode s.a)) ∧
    (∀ i : Instr, encode i = [s.a] → step t = exec i t)

/-- R140: memory zero, `sp` at SP_RESET, and every other item whatever the launch inputs are; the parameters are the
launch record's (log 5, log 8) and no run has halted (log 15), which are the model's own fields. -/
def Obligations.ConstructionState : Prop :=
  ∀ l : Launch,
    (∀ a : Nat, (State.construct l).mem.read a = 0x00) ∧ (State.construct l).sp = l.spReset ∧
    (State.construct l).a = l.a ∧ (State.construct l).x = l.x ∧ (State.construct l).y = l.y ∧
    (State.construct l).c = l.c ∧ (State.construct l).z = l.z ∧ (State.construct l).n = l.n ∧
    (State.construct l).pc = l.pc ∧ (State.construct l).spReset = l.spReset ∧
    (State.construct l).indyFF = l.indyFF ∧ (State.construct l).halted = false

/-- R141: every cell is 0x00 and nothing else changes, `sp` included. That the field `halted` stays too is the model's
choice (log 15). -/
def Obligations.MemoryClearTouchesOnlyMemory : Prop :=
  ∀ s : State, ∃ t, hostAct .reset s = .next t ∧ (∀ a : Nat, t.mem.read a = 0x00) ∧ t = { s with mem := t.mem }

/-- R142, R133: the bytes at their addresses, every other cell as before, `pc` at the load address, registers, flags
and `sp` untouched; out of bounds the call is refused (D17, log 19). From every state, a halted one included, a new run
begins (R9, R129, R144), which the model records by `halted = false` (log 15), and the parameters stay (log 5, log 8). -/
def Obligations.LoadProgramPlacesBytes : Prop :=
  (∀ (bytes : List Byte) (start : Int) (s : State),
    0 ≤ start → start ≤ 65535 → start + (bytes.length : Int) ≤ 65536 →
    ∃ t, hostAct (.load bytes start) s = .next t ∧ (t.pc.toNat : Int) = start ∧
      (∀ (k : Nat) (b : Byte), bytes[k]? = some b → t.mem.read (start.toNat + k) = b) ∧
      (∀ a : Nat, (a : Int) < start ∨ start + (bytes.length : Int) ≤ (a : Int) → t.mem.read a = s.mem.read a) ∧
      t.a = s.a ∧ t.x = s.x ∧ t.y = s.y ∧ t.c = s.c ∧ t.z = s.z ∧ t.n = s.n ∧ t.sp = s.sp ∧
      t.halted = false ∧ t.spReset = s.spReset ∧ t.indyFF = s.indyFF) ∧
  (∀ (bytes : List Byte) (start : Int) (s : State),
    start < 0 ∨ 65535 < start ∨ 65536 < start + (bytes.length : Int) →
    hostAct (.load bytes start) s = .refused .loadOutOfBounds)

/-! ## The invariant -/

/-- R27, R30: construction meets the invariant with an empty stack, whatever the launch inputs, State.reset with
them. -/
def Obligations.ConstructionMeetsInvariant : Prop :=
  (∀ l : Launch, Inv (State.construct l) ∧ (State.construct l).sp = (State.construct l).spReset) ∧ Inv core.reset

/-- R27, R32: every step keeps the memory in canonical form and the stack cursor at or above SP_RESET by an even
number of bytes. -/
def Obligations.StepKeepsInvariant : Prop :=
  ∀ s t : State, Inv s → step s = .next t → Inv t

/-- R27, R141, R142: the host's calls other than `advance` keep the invariant. -/
def Obligations.HostCallsKeepInvariant : Prop :=
  ∀ (h : HostAction) (s t : State), h ≠ .advance → Inv s → hostAct h s = .next t → Inv t
end

