-- ==== Sys2Proof/Laws/Bits.lean ====
section
/-! SUPPORT. The laws of the byte and word conversions. -/

namespace Sys2Proof

@[simp] theorem joinBytes_hiByte_loByte (v : Addr) : joinBytes (hiByte v) (loByte v) = v := by
  apply BitVec.eq_of_toNat_eq
  have := v.isLt
  simp only [joinBytes, hiByte, loByte, BitVec.toNat_ofNat]
  omega

@[simp] theorem loByte_joinBytes (hi lo : Byte) : loByte (joinBytes hi lo) = lo := by
  apply BitVec.eq_of_toNat_eq
  have := hi.isLt
  have := lo.isLt
  simp only [joinBytes, loByte, BitVec.toNat_ofNat]
  omega

@[simp] theorem hiByte_joinBytes (hi lo : Byte) : hiByte (joinBytes hi lo) = hi := by
  apply BitVec.eq_of_toNat_eq
  have := hi.isLt
  have := lo.isLt
  simp only [joinBytes, hiByte, BitVec.toNat_ofNat]
  omega

theorem joinBytes_toNat (hi lo : Byte) : (joinBytes hi lo).toNat = hi.toNat * 256 + lo.toNat := by
  have := hi.isLt
  have := lo.isLt
  simp only [joinBytes, BitVec.toNat_ofNat]
  omega

/-- A byte stands for an offset of -128..127 (R52). -/
theorem sext8_range (b : Byte) : -128 ≤ sext8 b ∧ sext8 b ≤ 127 := by
  have := b.isLt
  unfold sext8
  split <;> omega

@[simp] theorem relByte_sext8 (b : Byte) : relByte (sext8 b) = b := by
  apply BitVec.eq_of_toNat_eq
  have := b.isLt
  simp only [relByte, sext8, BitVec.toNat_ofInt]
  split <;> omega

theorem sext8_relByte {off : Int} (h : -128 ≤ off) (h' : off ≤ 127) : sext8 (relByte off) = off := by
  simp only [relByte, sext8, BitVec.toNat_ofInt]
  split <;> omega

@[simp] theorem truncByte_toNat (b : Byte) : truncByte (b.toNat : Int) = b := by
  apply BitVec.eq_of_toNat_eq
  have := b.isLt
  simp only [truncByte, BitVec.toNat_ofInt]
  omega

/-- The stored value of a truncation is the floored modulus (R12, D11). -/
theorem truncByte_toInt (v : Int) : ((truncByte v).toNat : Int) = v % 256 := by
  simp only [truncByte, BitVec.toNat_ofInt]
  omega

end Sys2Proof
end

