-- ==== Sys2Proof/Laws/State.lean ====
section
/-! SUPPORT. One lemma per field of State and per operation that replaces fields, true by rfl. -/

namespace Sys2Proof.Machine

@[simp] theorem State.setReg_a_a (s : State) (w : Byte) : (s.setReg .a w).a = w := rfl

@[simp] theorem State.setReg_a_x (s : State) (w : Byte) : (s.setReg .a w).x = s.x := rfl

@[simp] theorem State.setReg_a_y (s : State) (w : Byte) : (s.setReg .a w).y = s.y := rfl

@[simp] theorem State.setReg_a_c (s : State) (w : Byte) : (s.setReg .a w).c = s.c := rfl

@[simp] theorem State.setReg_a_z (s : State) (w : Byte) : (s.setReg .a w).z = s.z := rfl

@[simp] theorem State.setReg_a_n (s : State) (w : Byte) : (s.setReg .a w).n = s.n := rfl

@[simp] theorem State.setReg_a_pc (s : State) (w : Byte) : (s.setReg .a w).pc = s.pc := rfl

@[simp] theorem State.setReg_a_sp (s : State) (w : Byte) : (s.setReg .a w).sp = s.sp := rfl

@[simp] theorem State.setReg_a_mem (s : State) (w : Byte) : (s.setReg .a w).mem = s.mem := rfl

@[simp] theorem State.setReg_a_spReset (s : State) (w : Byte) : (s.setReg .a w).spReset = s.spReset := rfl

@[simp] theorem State.setReg_a_indyFF (s : State) (w : Byte) : (s.setReg .a w).indyFF = s.indyFF := rfl

@[simp] theorem State.setReg_a_halted (s : State) (w : Byte) : (s.setReg .a w).halted = s.halted := rfl

@[simp] theorem State.setReg_x_a (s : State) (w : Byte) : (s.setReg .x w).a = s.a := rfl

@[simp] theorem State.setReg_x_x (s : State) (w : Byte) : (s.setReg .x w).x = w := rfl

@[simp] theorem State.setReg_x_y (s : State) (w : Byte) : (s.setReg .x w).y = s.y := rfl

@[simp] theorem State.setReg_x_c (s : State) (w : Byte) : (s.setReg .x w).c = s.c := rfl

@[simp] theorem State.setReg_x_z (s : State) (w : Byte) : (s.setReg .x w).z = s.z := rfl

@[simp] theorem State.setReg_x_n (s : State) (w : Byte) : (s.setReg .x w).n = s.n := rfl

@[simp] theorem State.setReg_x_pc (s : State) (w : Byte) : (s.setReg .x w).pc = s.pc := rfl

@[simp] theorem State.setReg_x_sp (s : State) (w : Byte) : (s.setReg .x w).sp = s.sp := rfl

@[simp] theorem State.setReg_x_mem (s : State) (w : Byte) : (s.setReg .x w).mem = s.mem := rfl

@[simp] theorem State.setReg_x_spReset (s : State) (w : Byte) : (s.setReg .x w).spReset = s.spReset := rfl

@[simp] theorem State.setReg_x_indyFF (s : State) (w : Byte) : (s.setReg .x w).indyFF = s.indyFF := rfl

@[simp] theorem State.setReg_x_halted (s : State) (w : Byte) : (s.setReg .x w).halted = s.halted := rfl

@[simp] theorem State.setReg_y_a (s : State) (w : Byte) : (s.setReg .y w).a = s.a := rfl

@[simp] theorem State.setReg_y_x (s : State) (w : Byte) : (s.setReg .y w).x = s.x := rfl

@[simp] theorem State.setReg_y_y (s : State) (w : Byte) : (s.setReg .y w).y = w := rfl

@[simp] theorem State.setReg_y_c (s : State) (w : Byte) : (s.setReg .y w).c = s.c := rfl

@[simp] theorem State.setReg_y_z (s : State) (w : Byte) : (s.setReg .y w).z = s.z := rfl

@[simp] theorem State.setReg_y_n (s : State) (w : Byte) : (s.setReg .y w).n = s.n := rfl

@[simp] theorem State.setReg_y_pc (s : State) (w : Byte) : (s.setReg .y w).pc = s.pc := rfl

@[simp] theorem State.setReg_y_sp (s : State) (w : Byte) : (s.setReg .y w).sp = s.sp := rfl

@[simp] theorem State.setReg_y_mem (s : State) (w : Byte) : (s.setReg .y w).mem = s.mem := rfl

@[simp] theorem State.setReg_y_spReset (s : State) (w : Byte) : (s.setReg .y w).spReset = s.spReset := rfl

@[simp] theorem State.setReg_y_indyFF (s : State) (w : Byte) : (s.setReg .y w).indyFF = s.indyFF := rfl

@[simp] theorem State.setReg_y_halted (s : State) (w : Byte) : (s.setReg .y w).halted = s.halted := rfl

@[simp] theorem writeReg_c (r : Reg) (v : Int) (s : State) : (writeReg r v s).c = s.c := by
  cases r <;> rfl

@[simp] theorem writeReg_pc (r : Reg) (v : Int) (s : State) : (writeReg r v s).pc = s.pc := by
  cases r <;> rfl

@[simp] theorem writeReg_sp (r : Reg) (v : Int) (s : State) : (writeReg r v s).sp = s.sp := by
  cases r <;> rfl

@[simp] theorem writeReg_mem (r : Reg) (v : Int) (s : State) : (writeReg r v s).mem = s.mem := by
  cases r <;> rfl

@[simp] theorem writeReg_spReset (r : Reg) (v : Int) (s : State) : (writeReg r v s).spReset = s.spReset := by
  cases r <;> rfl

@[simp] theorem writeReg_indyFF (r : Reg) (v : Int) (s : State) : (writeReg r v s).indyFF = s.indyFF := by
  cases r <;> rfl

@[simp] theorem writeReg_halted (r : Reg) (v : Int) (s : State) : (writeReg r v s).halted = s.halted := by
  cases r <;> rfl

@[simp] theorem writeReg_z (r : Reg) (v : Int) (s : State) : (writeReg r v s).z = zeroFlag (truncByte v) := rfl

@[simp] theorem writeReg_n (r : Reg) (v : Int) (s : State) : (writeReg r v s).n = negativeFlag (truncByte v) := rfl

@[simp] theorem writeReg_a_a (v : Int) (s : State) : (writeReg .a v s).a = truncByte v := rfl

@[simp] theorem writeReg_a_x (v : Int) (s : State) : (writeReg .a v s).x = s.x := rfl

@[simp] theorem writeReg_a_y (v : Int) (s : State) : (writeReg .a v s).y = s.y := rfl

@[simp] theorem writeReg_x_a (v : Int) (s : State) : (writeReg .x v s).a = s.a := rfl

@[simp] theorem writeReg_x_x (v : Int) (s : State) : (writeReg .x v s).x = truncByte v := rfl

@[simp] theorem writeReg_x_y (v : Int) (s : State) : (writeReg .x v s).y = s.y := rfl

@[simp] theorem writeReg_y_a (v : Int) (s : State) : (writeReg .y v s).a = s.a := rfl

@[simp] theorem writeReg_y_x (v : Int) (s : State) : (writeReg .y v s).x = s.x := rfl

@[simp] theorem writeReg_y_y (v : Int) (s : State) : (writeReg .y v s).y = truncByte v := rfl

@[simp] theorem State.reg_a (s : State) : s.reg .a = s.a := rfl

@[simp] theorem State.reg_x (s : State) : s.reg .x = s.x := rfl

@[simp] theorem State.reg_y (s : State) : s.reg .y = s.y := rfl

/-- What a register reads after a register write (R12). -/
theorem writeReg_reg (r : Reg) (v : Int) (s : State) : (writeReg r v s).reg r = truncByte v := by
  cases r <;> rfl

/-- A register write leaves the other registers. -/
theorem writeReg_reg_of_ne {r q : Reg} (h : q ≠ r) (v : Int) (s : State) : (writeReg r v s).reg q = s.reg q := by
  cases r <;> cases q <;> first | rfl | exact absurd rfl h

@[simp] theorem State.construct_a (l : Launch) : (State.construct l).a = l.a := rfl

@[simp] theorem State.construct_x (l : Launch) : (State.construct l).x = l.x := rfl

@[simp] theorem State.construct_y (l : Launch) : (State.construct l).y = l.y := rfl

@[simp] theorem State.construct_c (l : Launch) : (State.construct l).c = l.c := rfl

@[simp] theorem State.construct_z (l : Launch) : (State.construct l).z = l.z := rfl

@[simp] theorem State.construct_n (l : Launch) : (State.construct l).n = l.n := rfl

@[simp] theorem State.construct_pc (l : Launch) : (State.construct l).pc = l.pc := rfl

@[simp] theorem State.construct_sp (l : Launch) : (State.construct l).sp = l.spReset := rfl

@[simp] theorem State.construct_mem (l : Launch) : (State.construct l).mem = Memory.zero := rfl

@[simp] theorem State.construct_spReset (l : Launch) : (State.construct l).spReset = l.spReset := rfl

@[simp] theorem State.construct_indyFF (l : Launch) : (State.construct l).indyFF = l.indyFF := rfl

@[simp] theorem State.construct_halted (l : Launch) : (State.construct l).halted = false := rfl

end Sys2Proof.Machine
end

