-- ==== Sys2Proof/Laws/Ops.lean ====
section
/-! SUPPORT. One lemma per shared operation: everything it can do, so that no proof unfolds it again. -/

namespace Sys2Proof.Machine

@[simp] theorem deliver_ok (t : State) : deliver (.ok t) = .next t := rfl

@[simp] theorem deliver_error (f : Fault) : deliver (.error f) = .fault f := rfl

/-- `deliver` answers a next state exactly when the operations did. -/
theorem deliver_eq_next {r : Res State} {t : State} : deliver r = .next t ↔ r = .ok t := by
  cases r <;> simp [deliver]

/-- `deliver` answers a fault exactly when the operations raised it. -/
theorem deliver_eq_fault {r : Res State} {f : Fault} : deliver r = .fault f ↔ r = .error f := by
  cases r <;> simp [deliver]

theorem deliver_ne_refused (r : Res State) (q : Refusal) : deliver r ≠ .refused q := by
  cases r <;> simp [deliver]

/-- A sequence of two operations answers a value exactly when both do. -/
theorem bind_eq_ok {α β : Type} {r : Res α} {k : α → Res β} {b : β} :
    (r >>= k) = .ok b ↔ ∃ a, r = .ok a ∧ k a = .ok b := by
  cases r <;> simp [bind, Except.bind]

/-- A sequence of two operations raises the first fault either raises. -/
theorem bind_eq_error {α β : Type} {r : Res α} {k : α → Res β} {f : Fault} :
    (r >>= k) = .error f ↔ r = .error f ∨ ∃ a, r = .ok a ∧ k a = .error f := by
  cases r <;> simp [bind, Except.bind]

@[simp] theorem ok_bind {α β : Type} (a : α) (k : α → Res β) : ((.ok a : Res α) >>= k) = k a := rfl

@[simp] theorem error_bind {α β : Type} (f : Fault) (k : α → Res β) : ((.error f : Res α) >>= k) = .error f := rfl

@[simp] theorem pure_eq_ok {α : Type} (a : α) : (pure a : Res α) = .ok a := rfl

@[simp] theorem raise_eq_error {α : Type} (f : Fault) : (raise f : Res α) = .error f := rfl

theorem incPc_eq (s : State) : incPc s =
    if s.pc.toNat + 1 ≤ 0xFFFF then .ok { s with pc := s.pc + 1 } else .error (.addressOutOfRange .pcIncrement) := by
  unfold incPc
  have hlt := s.pc.isLt
  by_cases h : s.pc = 0xFFFF#16
  · rw [if_pos h, if_neg (by rw [h]; decide)]; rfl
  · rw [if_neg h, if_pos ?_]; rfl
    have : s.pc.toNat ≠ 0xFFFF := fun e => h (BitVec.eq_of_toNat_eq (by rw [e]; rfl))
    omega

/-- The fetch of `n` bytes: `pc` moves past them, or the fetch of one of them faults (R119). -/
theorem consume_eq (n : Nat) (s : State) : consume n s =
    if s.pc.toNat + n ≤ 0xFFFF then .ok { s with pc := s.pc + BitVec.ofNat 16 n }
    else .error (.addressOutOfRange .pcIncrement) := by
  induction n generalizing s with
  | zero =>
    have := s.pc.isLt
    rw [if_pos (by omega)]
    simp [consume]
  | succ n ih =>
    simp only [consume, incPc_eq]
    by_cases h1 : s.pc.toNat + 1 ≤ 0xFFFF
    · rw [if_pos h1, ok_bind, ih]
      have hpc : (s.pc + 1).toNat = s.pc.toNat + 1 := by
        rw [BitVec.toNat_add]; simp; omega
      simp only [hpc]
      have e : s.pc + 1 + BitVec.ofNat 16 n = s.pc + BitVec.ofNat 16 (n + 1) := by
        rw [BitVec.ofNat_add, BitVec.add_assoc, BitVec.add_comm (BitVec.ofNat 16 n)]
        rfl
      rw [e]
      congr 1
      simp only [eq_iff_iff]; omega
    · rw [if_neg h1, error_bind, if_neg (by omega)]

/-- A fetch that succeeds gives the state with `pc` moved, and the bytes lay below 0xFFFF. -/
theorem consume_eq_ok {n : Nat} {s t : State} :
    consume n s = .ok t ↔ s.pc.toNat + n ≤ 0xFFFF ∧ t = { s with pc := s.pc + BitVec.ofNat 16 n } := by
  rw [consume_eq]
  split <;> simp [*, eq_comm]

/-- A fetch raises nothing but the common fetch fault. -/
theorem consume_eq_error {n : Nat} {s : State} {f : Fault} :
    consume n s = .error f ↔ 0xFFFF < s.pc.toNat + n ∧ f = .addressOutOfRange .pcIncrement := by
  rw [consume_eq]
  split <;> rename_i h
  · simp; omega
  · simp [eq_comm]; omega

theorem memRead_eq {addr : Int} (h : 0 ≤ addr) (h' : addr ≤ 0xFFFF) (s : State) :
    memRead addr s = .ok (s.mem.read addr.toNat) := by
  rw [memRead, if_neg (by omega)]; rfl

theorem memRead_eq_ok {addr : Int} {s : State} {b : Byte} :
    memRead addr s = .ok b ↔ (0 ≤ addr ∧ addr ≤ 0xFFFF) ∧ b = s.mem.read addr.toNat := by
  rw [memRead]
  split <;> rename_i h
  · simp; omega
  · simp [eq_comm]; omega

theorem memRead_eq_error {addr : Int} {s : State} {f : Fault} :
    memRead addr s = .error f ↔ (addr < 0 ∨ addr > 0xFFFF) ∧ f = .addressOutOfRange .dataAddress := by
  rw [memRead]
  split <;> rename_i h <;> simp [h, eq_comm]

theorem memWrite_eq {addr : Int} (h : 0 ≤ addr) (h' : addr ≤ 0xFFFF) (v : Byte) (s : State) :
    memWrite addr v s = .ok { s with mem := s.mem.write addr.toNat v } := by
  rw [memWrite, if_neg (by omega)]; rfl

theorem memWrite_eq_ok {addr : Int} {v : Byte} {s t : State} :
    memWrite addr v s = .ok t ↔
      (0 ≤ addr ∧ addr ≤ 0xFFFF) ∧ t = { s with mem := s.mem.write addr.toNat v } := by
  rw [memWrite]
  split <;> rename_i h
  · simp; omega
  · simp [eq_comm]; omega

theorem memWrite_eq_error {addr : Int} {v : Byte} {s : State} {f : Fault} :
    memWrite addr v s = .error f ↔ (addr < 0 ∨ addr > 0xFFFF) ∧ f = .addressOutOfRange .dataAddress := by
  rw [memWrite]
  split <;> rename_i h <;> simp [h, eq_comm]

/-- A read of a zero-page address never faults (R73). -/
@[simp] theorem memRead_eaZp (zp : Byte) (s : State) : memRead (eaZp zp) s = .ok (s.mem.read zp.toNat) := by
  have := zp.isLt
  rw [memRead_eq (by simp [eaZp]) (by simp only [eaZp]; omega)]
  simp [eaZp]

/-- A write of a zero-page address never faults (R73). -/
@[simp] theorem memWrite_eaZp (zp : Byte) (v : Byte) (s : State) :
    memWrite (eaZp zp) v s = .ok { s with mem := s.mem.write zp.toNat v } := by
  have := zp.isLt
  rw [memWrite_eq (by simp [eaZp]) (by simp only [eaZp]; omega)]
  simp [eaZp]

/-- A read of a 16-bit address never faults. -/
@[simp] theorem memRead_addr (v : Addr) (s : State) : memRead (v.toNat : Int) s = .ok (s.mem.read v.toNat) := by
  have := v.isLt
  rw [memRead_eq (by omega) (by omega)]
  simp

/-- A write of a 16-bit address never faults (R74). -/
@[simp] theorem memWrite_addr (a : Addr) (v : Byte) (s : State) :
    memWrite (a.toNat : Int) v s = .ok { s with mem := s.mem.write a.toNat v } := by
  have := a.isLt
  rw [memWrite_eq (by omega) (by omega)]
  simp

theorem fetch8_eq (s : State) : fetch8 s =
    if s.pc.toNat + 1 ≤ 0xFFFF then .ok (s.mem.read s.pc.toNat, { s with pc := s.pc + 1 })
    else .error (.addressOutOfRange .pcIncrement) := by
  simp only [fetch8, memRead_addr, ok_bind, incPc_eq, pure_eq_ok]
  split <;> simp

theorem push8_eq_ok {v : Byte} {s t : State} : push8 v s = .ok t ↔
    s.sp ≠ 0xFFFF#16 ∧ t = { s with mem := s.mem.write s.sp.toNat v, sp := s.sp + 1 } := by
  unfold push8
  split <;> rename_i h <;> simp [h, eq_comm]

theorem push8_eq_error {v : Byte} {s : State} {f : Fault} :
    push8 v s = .error f ↔ s.sp = 0xFFFF#16 ∧ f = .stackOverflow := by
  unfold push8
  split <;> rename_i h <;> simp [h, eq_comm]

theorem pop8_eq_ok {s t : State} {b : Byte} : pop8 s = .ok (b, t) ↔
    s.sp ≠ s.spReset ∧ s.sp ≠ 0#16 ∧ b = s.mem.read (s.sp.toNat - 1) ∧ t = { s with sp := s.sp - 1 } := by
  unfold pop8
  have hlt := s.sp.isLt
  have hz : s.sp = 0#16 ↔ s.sp.toNat = 0 :=
    ⟨fun e => by rw [e]; rfl, fun e => BitVec.eq_of_toNat_eq (by rw [e]; rfl)⟩
  split <;> rename_i h
  · simp [h]
  · have hn : ((s.sp.toNat : Int) - 1).toNat = s.sp.toNat - 1 := by omega
    rw [bind_eq_ok]
    constructor
    · rintro ⟨c, hc, he⟩
      obtain ⟨hr, rfl⟩ := memRead_eq_ok.mp hc
      cases he
      exact ⟨h, fun e => by have := hz.mp e; omega, by rw [hn], rfl⟩
    · rintro ⟨-, h0, rfl, rfl⟩
      have : s.sp.toNat ≠ 0 := fun e => h0 (hz.mpr e)
      exact ⟨_, memRead_eq_ok.mpr ⟨by omega, by rw [hn]⟩, rfl⟩

theorem pop8_eq_error {s : State} {f : Fault} : pop8 s = .error f ↔
    (s.sp = s.spReset ∧ f = .stackUnderflow) ∨
      (s.sp ≠ s.spReset ∧ s.sp = 0#16 ∧ f = .addressOutOfRange .dataAddress) := by
  unfold pop8
  have hlt := s.sp.isLt
  have hz : s.sp = 0#16 ↔ s.sp.toNat = 0 :=
    ⟨fun e => by rw [e]; rfl, fun e => BitVec.eq_of_toNat_eq (by rw [e]; rfl)⟩
  split <;> rename_i h
  · rw [raise_eq_error, Except.error.injEq]
    exact ⟨fun e => .inl ⟨h, e.symm⟩, fun e => e.elim (fun k => k.2.symm) (fun k => absurd h k.1)⟩
  · rw [bind_eq_error]
    constructor
    · rintro (he | ⟨c, -, he⟩)
      · obtain ⟨hr, rfl⟩ := memRead_eq_error.mp he
        exact .inr ⟨h, hz.mpr (by omega), rfl⟩
      · cases he
    · rintro (⟨e, -⟩ | ⟨-, h0, rfl⟩)
      · exact absurd e h
      · have := hz.mp h0
        exact .inl (memRead_eq_error.mpr ⟨by omega, rfl⟩)

theorem indexByY_eq_ok {base : Addr} {s : State} {ea : Int} : indexByY base s = .ok ea ↔
    base.toNat + s.y.toNat ≤ 0xFFFF ∧ ea = (base.toNat : Int) + (s.y.toNat : Int) := by
  unfold indexByY
  simp only []
  split <;> rename_i h
  · simp; omega
  · simp [eq_comm]; omega

theorem indexByY_eq_error {base : Addr} {s : State} {f : Fault} : indexByY base s = .error f ↔
    0xFFFF < base.toNat + s.y.toNat ∧ f = .addressOutOfRange .dataAddress := by
  unfold indexByY
  simp only []
  split <;> rename_i h
  · simp [eq_comm]; omega
  · simp; omega

/-- Away from operand 0xFF the pointer's bytes are the cells `zp` and `zp + 1` (R75). -/
theorem eaIndY_eq {zp : Byte} (h : zp ≠ 0xFF#8) (s : State) :
    eaIndY zp s = indexByY (joinBytes (s.mem.read (zp.toNat + 1)) (s.mem.read zp.toNat)) s := by
  have hlt := zp.isLt
  have e : ((zp.toNat : Int) + 1).toNat = zp.toNat + 1 := by omega
  simp only [eaIndY, pointerHighAt, if_neg h, pure_eq_ok, ok_bind, memRead_eaZp]
  rw [memRead_eq (by omega) (by omega), ok_bind, e]

/-- An index mode reads nothing that an instruction fetch changes. -/
theorem eaIndY_pc (zp : Byte) (s : State) (p : Addr) : eaIndY zp { s with pc := p } = eaIndY zp s := rfl

/-- An effective address of INDY lies in memory (R78). -/
theorem eaIndY_range {zp : Byte} {s : State} {ea : Int} (h : eaIndY zp s = .ok ea) : 0 ≤ ea ∧ ea ≤ 0xFFFF := by
  simp only [eaIndY, bind_eq_ok] at h
  obtain ⟨_, _, _, _, _, _, h⟩ := h
  obtain ⟨h1, rfl⟩ := indexByY_eq_ok.mp h
  omega

theorem branchTo_eq_ok {off : Int} {s t : State} : branchTo off s = .ok t ↔
    (0 ≤ (s.pc.toNat : Int) + off ∧ (s.pc.toNat : Int) + off ≤ 0xFFFF) ∧
      t = { s with pc := BitVec.ofInt 16 ((s.pc.toNat : Int) + off) } := by
  unfold branchTo
  simp only []
  split <;> rename_i h
  · simp; omega
  · simp [eq_comm]; omega

theorem branchTo_eq_error {off : Int} {s : State} {f : Fault} : branchTo off s = .error f ↔
    ((s.pc.toNat : Int) + off < 0 ∨ (s.pc.toNat : Int) + off > 0xFFFF) ∧ f = .addressOutOfRange .branchTarget := by
  unfold branchTo
  simp only []
  split <;> rename_i h <;> simp [h, eq_comm]

end Sys2Proof.Machine
end

