-- ==== Sys2Proof/Laws/Exec.lean ====
section
/-! SUPPORT. The inversion lemma of exec: everything an instruction that answers a next state has done, once, so that
frames and invariants need not unfold the meanings. -/

namespace Sys2Proof.Machine

/-- `t` is `s` after the instruction's effect, its conditions included; `pc` of JSR is left to `t`. -/
def Effect (i : Instr) (s t : State) : Prop :=
  let next : Addr := s.pc + BitVec.ofNat 16 i.length
  let branchTarget (off : Int) : Int := ((s.pc + 2).toNat : Int) + off
  match i with
  | .brk => t = { s with pc := next, halted := true }
  | .clc => t = { s with pc := next, c := false }
  | .jsr _ => s.sp ≠ 0xFFFF#16 ∧ s.sp + 1 ≠ 0xFFFF#16 ∧
      t = { s with
        pc := t.pc, sp := s.sp + 1 + 1,
        mem := (s.mem.write s.sp.toNat (loByte (BitVec.ofNat 16 ((s.pc + 1).toNat + 2)))).write (s.sp + 1).toNat
          (hiByte (BitVec.ofNat 16 ((s.pc + 1).toNat + 2))) }
  | .jmp target => t = { s with pc := target }
  | .rts => s.sp ≠ s.spReset ∧ s.sp ≠ 0#16 ∧ s.sp - 1 ≠ s.spReset ∧ s.sp - 1 ≠ 0#16 ∧
      t = { s with
        pc := joinBytes (s.mem.read (s.sp.toNat - 1)) (s.mem.read ((s.sp - 1).toNat - 1)), sp := s.sp - 1 - 1 }
  | .adcImm m =>
      let raw := s.a.toNat + m.toNat + carryIn s.c
      t = writeReg .a (raw : Int) { s with pc := next, c := carryFlag raw }
  | .staZp zp => t = { s with pc := next, mem := s.mem.write zp.toNat s.a }
  | .stxZp zp => t = { s with pc := next, mem := s.mem.write zp.toNat s.x }
  | .staAbs addr => t = { s with pc := next, mem := s.mem.write addr.toNat s.a }
  | .staAbsY addr => ∃ ea, eaAbsY addr s = .ok ea ∧ (0 ≤ ea ∧ ea ≤ 0xFFFF) ∧
      t = { s with pc := next, mem := s.mem.write ea.toNat s.a }
  | .staIndY zp => ∃ ea, eaIndY zp s = .ok ea ∧ (0 ≤ ea ∧ ea ≤ 0xFFFF) ∧
      t = { s with pc := next, mem := s.mem.write ea.toNat s.a }
  | .ldaImm v => t = writeReg .a (v.toNat : Int) { s with pc := next }
  | .ldxImm v => t = writeReg .x (v.toNat : Int) { s with pc := next }
  | .ldyImm v => t = writeReg .y (v.toNat : Int) { s with pc := next }
  | .ldaZp zp => t = writeReg .a ((s.mem.read zp.toNat).toNat : Int) { s with pc := next }
  | .ldyZp zp => t = writeReg .y ((s.mem.read zp.toNat).toNat : Int) { s with pc := next }
  | .tay => t = writeReg .y (s.a.toNat : Int) { s with pc := next }
  | .tya => t = writeReg .a (s.y.toNat : Int) { s with pc := next }
  | .iny => t = writeReg .y ((s.y.toNat : Int) + 1) { s with pc := next }
  | .dey => t = writeReg .y ((s.y.toNat : Int) + -1) { s with pc := next }
  | .inx => t = writeReg .x ((s.x.toNat : Int) + 1) { s with pc := next }
  | .dex => t = writeReg .x ((s.x.toNat : Int) + -1) { s with pc := next }
  | .incZp zp => t = { s with
      pc := next, mem := s.mem.write zp.toNat (truncByte (((s.mem.read zp.toNat).toNat : Int) + 1)) }
  | .decZp zp => t = { s with
      pc := next, mem := s.mem.write zp.toNat (truncByte (((s.mem.read zp.toNat).toNat : Int) + -1)) }
  | .cmpImm v => t = { s with pc := next, z := equalFlag s.a v }
  | .cpxImm v => t = { s with pc := next, z := equalFlag s.x v }
  | .cpyImm v => t = { s with pc := next, z := equalFlag s.y v }
  | .cmpIndY zp => ∃ ea, eaIndY zp s = .ok ea ∧ (0 ≤ ea ∧ ea ≤ 0xFFFF) ∧
      t = { s with pc := next, z := equalFlag s.a (s.mem.read ea.toNat) }
  | .beq off => if s.z then
        (0 ≤ branchTarget off ∧ branchTarget off ≤ 0xFFFF) ∧ t = { s with pc := BitVec.ofInt 16 (branchTarget off) }
      else t = { s with pc := next }
  | .bne off => if s.z then t = { s with pc := next }
      else (0 ≤ branchTarget off ∧ branchTarget off ≤ 0xFFFF) ∧
        t = { s with pc := BitVec.ofInt 16 (branchTarget off) }
  | .nop => t = { s with pc := next }

/-- A sequence that starts with a fetch answers a state only if the bytes could be fetched. -/
theorem deliver_consume_bind {n : Nat} {s t : State} {k : State → Res State}
    (h : deliver (consume n s >>= k) = .next t) :
    s.pc.toNat + n ≤ 0xFFFF ∧ k { s with pc := s.pc + BitVec.ofNat 16 n } = .ok t := by
  obtain ⟨s1, h1, h2⟩ := bind_eq_ok.mp (deliver_eq_next.mp h)
  obtain ⟨hf, rfl⟩ := consume_eq_ok.mp h1
  exact ⟨hf, h2⟩

theorem execJsr_effect {target : Addr} {s t : State} (h : execJsr target s = .next t) :
    s.pc.toNat + 3 ≤ 0xFFFF ∧ Effect (.jsr target) s t := by
  obtain ⟨hf, h⟩ := deliver_consume_bind h
  have hpc : (s.pc + BitVec.ofNat 16 1).toNat = s.pc.toNat + 1 := by
    rw [BitVec.toNat_add, BitVec.toNat_ofNat]; omega
  simp only [hpc] at h
  split at h
  · cases h
  · obtain ⟨s2, h2, h⟩ := bind_eq_ok.mp h
    obtain ⟨s3, h3, h⟩ := bind_eq_ok.mp h
    obtain ⟨s4, h4, h⟩ := bind_eq_ok.mp h
    obtain ⟨n1, rfl⟩ := push8_eq_ok.mp h2
    obtain ⟨n2, rfl⟩ := push8_eq_ok.mp h3
    obtain ⟨-, rfl⟩ := consume_eq_ok.mp h4
    cases h
    refine ⟨by omega, n1, n2, ?_⟩
    have e : (s.pc + 1).toNat = s.pc.toNat + 1 := hpc
    rw [e]

theorem execRts_effect {s t : State} (h : execRts s = .next t) : s.pc.toNat + 1 ≤ 0xFFFF ∧ Effect .rts s t := by
  obtain ⟨hf, h⟩ := deliver_consume_bind h
  obtain ⟨⟨hi, s2⟩, h2, h⟩ := bind_eq_ok.mp h
  obtain ⟨⟨lo, s3⟩, h3, h⟩ := bind_eq_ok.mp h
  obtain ⟨n1, n2, rfl, rfl⟩ := pop8_eq_ok.mp h2
  obtain ⟨n3, n4, rfl, rfl⟩ := pop8_eq_ok.mp h3
  cases h
  exact ⟨hf, n1, n2, n3, n4, rfl⟩

theorem branchIf_eq_ok {taken : Bool} {off : Int} {s t : State} : branchIf taken off s = .ok t ↔
    if taken then (0 ≤ (s.pc.toNat : Int) + off ∧ (s.pc.toNat : Int) + off ≤ 0xFFFF) ∧
        t = { s with pc := BitVec.ofInt 16 ((s.pc.toNat : Int) + off) }
    else t = s := by
  cases taken
  · simp [branchIf, eq_comm]
  · simp [branchIf, branchTo_eq_ok]

/-- Everything an instruction can have done when it answers a next state. -/
theorem exec_effect {i : Instr} {s t : State} (h : exec i s = .next t) :
    s.pc.toNat + i.length ≤ 0xFFFF ∧ Effect i s t := by
  cases i
  case jsr => exact execJsr_effect h
  case rts => exact execRts_effect h
  case staAbsY =>
    obtain ⟨hf, h⟩ := deliver_consume_bind h
    obtain ⟨ea, h1, h⟩ := bind_eq_ok.mp h
    obtain ⟨hr, rfl⟩ := memWrite_eq_ok.mp h
    exact ⟨hf, ea, h1, hr, rfl⟩
  case staIndY =>
    obtain ⟨hf, h⟩ := deliver_consume_bind h
    obtain ⟨ea, h1, h⟩ := bind_eq_ok.mp h
    obtain ⟨hr, rfl⟩ := memWrite_eq_ok.mp h
    exact ⟨hf, ea, h1, hr, rfl⟩
  case cmpIndY =>
    obtain ⟨hf, h⟩ := deliver_consume_bind h
    obtain ⟨ea, h1, h⟩ := bind_eq_ok.mp h
    obtain ⟨m, h2, h⟩ := bind_eq_ok.mp h
    obtain ⟨hr, rfl⟩ := memRead_eq_ok.mp h2
    cases h
    exact ⟨hf, ea, h1, hr, rfl⟩
  case beq =>
    obtain ⟨hf, h⟩ := deliver_consume_bind h
    have h := branchIf_eq_ok.mp h
    refine ⟨hf, ?_⟩
    cases hz : s.z <;> simp only [hz, Bool.false_eq_true, if_true, if_false, Effect] at h ⊢ <;> exact hz ▸ h
  case bne =>
    obtain ⟨hf, h⟩ := deliver_consume_bind h
    have h := branchIf_eq_ok.mp h
    refine ⟨hf, ?_⟩
    cases hz : s.z <;>
      simp only [hz, Bool.not_true, Bool.not_false, Bool.false_eq_true, if_true, if_false, Effect] at h ⊢ <;>
      exact hz ▸ h
  case nop =>
    obtain ⟨hf, rfl⟩ := consume_eq_ok.mp (deliver_eq_next.mp h)
    exact ⟨hf, rfl⟩
  all_goals
    obtain ⟨hf, h⟩ := deliver_consume_bind h
    simp only [memRead_eaZp, memWrite_eaZp, eaAbs, memWrite_addr, ok_bind, pure_eq_ok, Except.ok.injEq] at h
    exact ⟨hf, h.symm⟩

end Sys2Proof.Machine
end

