-- ==== Sys2Proof/Laws/PerInstr.lean ====
section
/-! SUPPORT. The per-instruction family EncodingLength: the encoding of an instruction starts with its opcode byte
and has the length of its format (spec/30_encoding.md R50, R51, R55). -/

namespace Sys2Proof.Laws.EncodingLength

/-- The bytes of an instruction: its opcode byte, then as many operand bytes as its format has. -/
def Statement (i : Instr) : Prop :=
  (encode i).head? = some (defaultOpcodeMap i.op) ∧ (encode i).length = i.length

theorem brk : Statement .brk :=
  ⟨rfl, rfl⟩

theorem clc : Statement .clc :=
  ⟨rfl, rfl⟩

theorem jsr : ∀ target : Addr, Statement (.jsr target) :=
  fun _ => ⟨rfl, rfl⟩

theorem jmp : ∀ target : Addr, Statement (.jmp target) :=
  fun _ => ⟨rfl, rfl⟩

theorem rts : Statement .rts :=
  ⟨rfl, rfl⟩

theorem adcImm : ∀ imm : Byte, Statement (.adcImm imm) :=
  fun _ => ⟨rfl, rfl⟩

theorem staZp : ∀ zp : Byte, Statement (.staZp zp) :=
  fun _ => ⟨rfl, rfl⟩

theorem stxZp : ∀ zp : Byte, Statement (.stxZp zp) :=
  fun _ => ⟨rfl, rfl⟩

theorem staAbs : ∀ addr : Addr, Statement (.staAbs addr) :=
  fun _ => ⟨rfl, rfl⟩

theorem staAbsY : ∀ addr : Addr, Statement (.staAbsY addr) :=
  fun _ => ⟨rfl, rfl⟩

theorem staIndY : ∀ zp : Byte, Statement (.staIndY zp) :=
  fun _ => ⟨rfl, rfl⟩

theorem ldaImm : ∀ imm : Byte, Statement (.ldaImm imm) :=
  fun _ => ⟨rfl, rfl⟩

theorem ldxImm : ∀ imm : Byte, Statement (.ldxImm imm) :=
  fun _ => ⟨rfl, rfl⟩

theorem ldyImm : ∀ imm : Byte, Statement (.ldyImm imm) :=
  fun _ => ⟨rfl, rfl⟩

theorem ldaZp : ∀ zp : Byte, Statement (.ldaZp zp) :=
  fun _ => ⟨rfl, rfl⟩

theorem ldyZp : ∀ zp : Byte, Statement (.ldyZp zp) :=
  fun _ => ⟨rfl, rfl⟩

theorem tay : Statement .tay :=
  ⟨rfl, rfl⟩

theorem tya : Statement .tya :=
  ⟨rfl, rfl⟩

theorem iny : Statement .iny :=
  ⟨rfl, rfl⟩

theorem dey : Statement .dey :=
  ⟨rfl, rfl⟩

theorem inx : Statement .inx :=
  ⟨rfl, rfl⟩

theorem dex : Statement .dex :=
  ⟨rfl, rfl⟩

theorem incZp : ∀ zp : Byte, Statement (.incZp zp) :=
  fun _ => ⟨rfl, rfl⟩

theorem decZp : ∀ zp : Byte, Statement (.decZp zp) :=
  fun _ => ⟨rfl, rfl⟩

theorem cmpImm : ∀ imm : Byte, Statement (.cmpImm imm) :=
  fun _ => ⟨rfl, rfl⟩

theorem cpxImm : ∀ imm : Byte, Statement (.cpxImm imm) :=
  fun _ => ⟨rfl, rfl⟩

theorem cpyImm : ∀ imm : Byte, Statement (.cpyImm imm) :=
  fun _ => ⟨rfl, rfl⟩

theorem cmpIndY : ∀ zp : Byte, Statement (.cmpIndY zp) :=
  fun _ => ⟨rfl, rfl⟩

theorem beq : ∀ off : Int, Statement (.beq off) :=
  fun _ => ⟨rfl, rfl⟩

theorem bne : ∀ off : Int, Statement (.bne off) :=
  fun _ => ⟨rfl, rfl⟩

theorem nop : Statement .nop :=
  ⟨rfl, rfl⟩

end Sys2Proof.Laws.EncodingLength
end

