-- ==== Sys2Proof/Laws/Step.lean ====
section
/-! SUPPORT. Small lemmas about fetching, looking up and stepping. -/

namespace Sys2Proof.Machine

@[simp] theorem stepWith_of_running (m : OpcodeMap) {s : State} (h : s.halted = false) :
    stepWith m s = advanceWith m s := by
  simp [stepWith, h]

@[simp] theorem stepWith_of_halted (m : OpcodeMap) {s : State} (h : s.halted = true) :
    stepWith m s = .refused .stepAfterHalt := by
  simp [stepWith, h]

/-- The bytes at `pc` begin with the opcode byte. -/
theorem fetchWindow_eq (s : State) :
    fetchWindow s = s.mem.read s.pc.toNat :: s.mem.bytesFrom (s.pc.toNat + 1) 2 := by
  have hlt := s.pc.isLt
  rw [fetchWindow, Memory.bytesFrom, if_neg]
  show ¬ s.pc.toNat > 0xFFFF
  omega

theorem bytesFrom_succ {m : Memory} {a n : Nat} (h : a ≤ 0xFFFF) :
    m.bytesFrom a (n + 1) = m.read a :: m.bytesFrom (a + 1) n := by
  rw [Memory.bytesFrom, if_neg]
  show ¬ a > 0xFFFF
  omega

theorem bytesFrom_beyond {m : Memory} {a n : Nat} (h : 0xFFFF < a) : m.bytesFrom a n = [] := by
  cases n
  · rfl
  · rw [Memory.bytesFrom, if_pos]
    show a > 0xFFFF
    exact h

/-- What a lookup answers has that byte in the map. -/
theorem lookup_eq_some {m : OpcodeMap} {b : Byte} {o : Op} (h : lookup m b = some o) : m o = b := by
  have hb := List.find?_some h
  simpa using hb

/-- A lookup fails exactly for a byte no operation has (R56). -/
theorem lookup_eq_none {m : OpcodeMap} {b : Byte} : lookup m b = none ↔ ∀ o : Op, m o ≠ b := by
  unfold lookup
  rw [List.find?_eq_none]
  constructor
  · intro h o
    have ho : o ∈ Op.all := by cases o <;> decide
    simpa using h o ho
  · intro h o _
    simpa using h o

/-- Under a one-to-one map a lookup finds the operation whose byte it is. -/
theorem lookup_self {m : OpcodeMap} (h : ∀ p q : Op, m p = m q → p = q) (o : Op) : lookup m (m o) = some o := by
  cases hl : lookup m (m o) with
  | none => exact absurd rfl (lookup_eq_none.mp hl o)
  | some q => rw [h q o (lookup_eq_some hl)]

/-- The operand reader answers an instance of the operation it was given. -/
theorem withOperand_op {o : Op} {rest : List Byte} {i : Instr} (h : withOperand o rest = .ok i) : i.op = o := by
  cases o <;> simp only [withOperand, withByte, withWord] at h <;> (try split at h) <;> cases h <;> rfl

end Sys2Proof.Machine
end

