-- ==== Sys2Proof/Tests/Slice0.lean ====
section
/-! SUPPORT. Tests of one step or one decoding each, with results from the spec's own tables and examples
(95_test_vectors.md, and the Example lines of the rules), the WellFormed smoke test, and for every obligation with
hypotheses a witness that meets them, at the edges of its clauses. -/

namespace Sys2Proof.Tests

open Sys2Proof.Machine Sys2Proof.Safety

/-! ## WellFormed -/

/-- R52: an offset outside -128..127 has no byte. -/
theorem test_wellFormed_refuses_offsets :
    (Instr.beq 128).wellFormed = false ∧ (Instr.beq (-129)).wellFormed = false ∧
    (Instr.bne 128).wellFormed = false ∧ (Instr.bne (-129)).wellFormed = false := by decide

theorem test_wellFormed_takes_edges :
    (Instr.beq 127).wellFormed = true ∧ (Instr.beq (-128)).wellFormed = true ∧ (Instr.bne (-128)).wellFormed = true ∧
    (Instr.jsr 0xFFFF).wellFormed = true := by decide

/-! ## Decoding: words written out from the table of 30_encoding.md R55 and the formats of R51 -/

theorem test_decode_implied :
    decode [0x00] = .ok .brk ∧ decode [0x18] = .ok .clc ∧ decode [0x60] = .ok .rts ∧ decode [0xA8] = .ok .tay ∧
    decode [0x98] = .ok .tya ∧ decode [0xC8] = .ok .iny ∧ decode [0x88] = .ok .dey ∧ decode [0xE8] = .ok .inx ∧
    decode [0xCA] = .ok .dex ∧ decode [0xEA] = .ok .nop := by decide

theorem test_decode_immediate :
    decode [0x69, 0x20] = .ok (.adcImm 0x20) ∧ decode [0xA9, 0x05] = .ok (.ldaImm 0x05) ∧
    decode [0xA2, 0x33] = .ok (.ldxImm 0x33) ∧ decode [0xA0, 0xFF] = .ok (.ldyImm 0xFF) ∧
    decode [0xC9, 0x05] = .ok (.cmpImm 0x05) ∧ decode [0xE0, 0x04] = .ok (.cpxImm 0x04) ∧
    decode [0xC0, 0x04] = .ok (.cpyImm 0x04) := by decide

theorem test_decode_zeroPage :
    decode [0x85, 0x10] = .ok (.staZp 0x10) ∧ decode [0x86, 0x20] = .ok (.stxZp 0x20) ∧
    decode [0xA5, 0x10] = .ok (.ldaZp 0x10) ∧ decode [0xA4, 0x20] = .ok (.ldyZp 0x20) ∧
    decode [0xE6, 0x10] = .ok (.incZp 0x10) ∧ decode [0xC6, 0x10] = .ok (.decZp 0x10) ∧
    decode [0x91, 0x10] = .ok (.staIndY 0x10) ∧ decode [0xD1, 0x10] = .ok (.cmpIndY 0x10) := by decide

theorem test_decode_absolute :
    decode [0x20, 0x34, 0x12] = .ok (.jsr 0x1234) ∧ decode [0x4C, 0x00, 0x10] = .ok (.jmp 0x1000) ∧
    decode [0x8D, 0x08, 0x06] = .ok (.staAbs 0x0608) ∧ decode [0x99, 0xFE, 0x02] = .ok (.staAbsY 0x02FE) := by decide

theorem test_decode_relative :
    decode [0xF0, 0x7F] = .ok (.beq 127) ∧ decode [0xF0, 0x80] = .ok (.beq (-128)) ∧
    decode [0xD0, 0xFA] = .ok (.bne (-6)) ∧ decode [0xD0, 0x00] = .ok (.bne 0) := by decide

/-- Table V-DEC: bytes that are no opcode of this machine. -/
theorem test_decode_unknown :
    decode [0x02, 0, 0] = .error (.unknownOpcode 0x02) ∧ decode [0xFF, 0, 0] = .error (.unknownOpcode 0xFF) ∧
    decode [0xAD, 0, 0] = .error (.unknownOpcode 0xAD) ∧ decode [0xA6, 0, 0] = .error (.unknownOpcode 0xA6) ∧
    decode [0x38, 0, 0] = .error (.unknownOpcode 0x38) ∧ decode [0xE9, 0, 0] = .error (.unknownOpcode 0xE9) ∧
    decode [0x1A, 0, 0] = .error (.unknownOpcode 0x1A) := by decide

theorem test_decode_truncated :
    decode [] = .error .noBytes ∧ decode [0xA9] = .error (.truncated .ldaImm) ∧
    decode [0x20] = .error (.truncated .jsr) ∧ decode [0x8D, 0x00] = .error (.truncated .staAbs) := by decide

theorem test_decodeTableWord :
    decodeTableWord 8 0xE8 = some .inx ∧ decodeTableWord 16 0x05A9 = some (.ldaImm 0x05) ∧
    decodeTableWord 24 0x123420 = some (.jsr 0x1234) ∧ decodeTableWord 8 0x12344C = some (.jmp 0x0000) ∧
    decodeTableWord 8 0x02 = none := by decide

/-- The bytes of the source's own scenario, S7. -/
theorem test_encode_scenario : encode (.ldaImm 0x05) ++ encode (.staZp 0x10) = [0xA9, 0x05, 0x85, 0x10] := by decide

/-- Scenario S3: the offset bytes the assembler computes. -/
theorem test_branch_fixups :
    encode (.beq (branchOffset 0x0600 0x0681)) = [0xF0, 0x7F] ∧
    encode (.beq (branchOffset 0x0680 0x0602)) = [0xF0, 0x80] ∧
    encode (.beq (branchOffset 0x0600 0x0600)) = [0xF0, 0xFE] ∧
    encode (.beq (branchOffset 0x0610 0x0600)) = [0xF0, 0xEE] := by decide

/-! ## One step on a small state: the rows of part 2 of 95_test_vectors.md -/

/-- The Z-state of 95_test_vectors.md with bytes at `a0`. -/
def zState (a0 : Addr) (bytes : List Byte) : State :=
  { State.reset with pc := a0, mem := Memory.zero.writeList a0.toNat bytes }

/-- The Z-state with further bytes at another address. -/
def zStateWith (a0 : Addr) (bytes : List Byte) (at2 : Nat) (more : List Byte) : State :=
  { State.reset with pc := a0, mem := (Memory.zero.writeList a0.toNat bytes).writeList at2 more }

/-- The registers, flags and cursors of a state: A, X, Y, C, Z, N, pc, sp. -/
structure View where
  a : Byte
  x : Byte
  y : Byte
  c : Bool
  z : Bool
  n : Bool
  pc : Addr
  sp : Addr
  deriving DecidableEq, Repr

/-- What a test sees of the next state, where there is one. -/
def view (o : Host.Outcome State Fault Refusal) : Option View :=
  (nextOf o).map (fun t => ⟨t.a, t.x, t.y, t.c, t.z, t.n, t.pc, t.sp⟩)

/-- A cell of the next state. -/
def cell (o : Host.Outcome State Fault Refusal) (a : Nat) : Option Byte := (nextOf o).map (fun t => t.mem.read a)

/-- V-HALT 1: BRK in the W-state; Halt, `pc = 0601`, the rest unchanged. -/
theorem test_brk :
    nextOf (step { zState 0x0600 [0x00] with a := 0xAA, x := 0xBB, y := 0xCC, c := true, z := true, n := true }) =
      some { zState 0x0601 [] with a := 0xAA, x := 0xBB, y := 0xCC, c := true, z := true, n := true, halted := true } :=
  by decide

/-- V-HALT 2: a halt opcode at FFFF. -/
theorem test_brk_at_top : faultOf (step (zState 0xFFFF [0x00])) = some (.addressOutOfRange .pcIncrement) := by decide

/-- V-HALT 3. -/
theorem test_clc : view (step { zState 0x0600 [0x18] with c := true, z := true }) =
    some ⟨0, 0, 0, false, true, false, 0x0601, 0xFF00⟩ := by decide

/-- V-JUMP 3 and 4. -/
theorem test_jmp : view (step (zState 0xFFFC [0x4C, 0x00, 0x10])) =
      some ⟨0, 0, 0, false, false, false, 0x1000, 0xFF00⟩ ∧
    faultOf (step (zState 0xFFFD [0x4C, 0x00, 0x10])) = some (.addressOutOfRange .pcIncrement) := by decide

/-- V-JUMP 6: return address 1300, low byte at the lower address. -/
theorem test_jsr : view (step (zState 0x12FD [0x20, 0x34, 0x12])) =
      some ⟨0, 0, 0, false, false, false, 0x1234, 0xFF02⟩ ∧
    cell (step (zState 0x12FD [0x20, 0x34, 0x12])) 0xFF00 = some 0x00 ∧
    cell (step (zState 0x12FD [0x20, 0x34, 0x12])) 0xFF01 = some 0x13 := by decide

/-- V-JUMP 9: the pushes overwrite the operand before it is read, so the target is FF02. -/
theorem test_jsr_overlap : view (step (zState 0xFEFF [0x20, 0x34, 0x12])) =
      some ⟨0, 0, 0, false, false, false, 0xFF02, 0xFF02⟩ ∧
    cell (step (zState 0xFEFF [0x20, 0x34, 0x12])) 0xFF00 = some 0x02 ∧
    cell (step (zState 0xFEFF [0x20, 0x34, 0x12])) 0xFF01 = some 0xFF := by decide

/-- V-JUMP 7 and 8. -/
theorem test_jsr_faults :
    faultOf (step (zState 0xFFFD [0x20])) = some (.addressOutOfRange .returnAddress) ∧
    faultOf (step (zState 0xFFFE [0x20])) = some (.addressOutOfRange .returnAddress) ∧
    faultOf (step { zState 0x0600 [0x20, 0x00, 0x10] with sp := 0xFFFE }) = some .stackOverflow := by decide

/-- V-JUMP 10. -/
theorem test_rts : nextOf (step { zStateWith 0x0700 [0x60] 0xFF00 [0x03, 0x06] with sp := 0xFF02 }) =
    some { zStateWith 0x0700 [0x60] 0xFF00 [0x03, 0x06] with pc := 0x0603, sp := 0xFF00 } := by decide

/-- V-JUMP 11. -/
theorem test_rts_empty : faultOf (step (zState 0x0600 [0x60])) = some .stackUnderflow := by decide

/-- V-ADC 5 and 6. -/
theorem test_adc : view (step { zState 0x0600 [0x69, 0xFF] with a := 0xFF, c := true }) =
      some ⟨0xFF, 0, 0, true, false, true, 0x0602, 0xFF00⟩ ∧
    view (step { zState 0x0600 [0x69, 0x00] with a := 0xFF, c := true }) =
      some ⟨0x00, 0, 0, true, true, false, 0x0602, 0xFF00⟩ := by decide

/-- V-ADC 9: a raw sum of 255 clears a stale carry. -/
theorem test_adc_no_carry : view (step { zState 0x0600 [0x69, 0xFE] with a := 0x00, c := true }) =
    some ⟨0xFF, 0, 0, false, false, true, 0x0602, 0xFF00⟩ := by decide

/-- V-ST 2 and 3: no flag is written. -/
theorem test_sta_stx_zp :
    cell (step { zState 0x0600 [0x85, 0xFF] with a := 0x80, z := true }) 0x00FF = some 0x80 ∧
    view (step { zState 0x0600 [0x85, 0xFF] with a := 0x80, z := true }) =
      some ⟨0x80, 0, 0, false, true, false, 0x0602, 0xFF00⟩ ∧
    cell (step { zState 0x0600 [0x86, 0x20] with x := 0x33 }) 0x0020 = some 0x33 := by decide

/-- V-ST 14: the store overwrites its own operand byte, already consumed. -/
theorem test_sta_own_operand : cell (step { zState 0x0000 [0x85, 0x01] with a := 0xEA }) 0x0001 = some 0xEA := by decide

/-- V-ST 4 and 5. -/
theorem test_sta_abs : cell (step { zState 0x0600 [0x8D, 0x08, 0x06] with a := 0xE8 }) 0x0608 = some 0xE8 ∧
    cell (step { zState 0x0600 [0x8D, 0xFF, 0xFF] with a := 0x01 }) 0xFFFF = some 0x01 := by decide

/-- V-ST 6 and 8. -/
theorem test_sta_absY : cell (step { zState 0x0600 [0x99, 0xFE, 0x02] with a := 0x01, y := 0x05 }) 0x0303 = some 0x01 ∧
    faultOf (step { zState 0x0600 [0x99, 0xFF, 0xFF] with a := 0x01, y := 0x02 }) =
      some (.addressOutOfRange .dataAddress) := by decide

/-- V-ST 10 and 11. -/
theorem test_sta_indY :
    cell (step { zStateWith 0x0600 [0x91, 0x10] 0x10 [0x80, 0x02] with a := 0x07, y := 0xFF }) 0x037F = some 0x07 ∧
    cell (step { zStateWith 0x0600 [0x91, 0xFE] 0xFE [0x34, 0x12] with a := 0x07 }) 0x1234 = some 0x07 := by decide

/-- V-ST 12 and 13. -/
theorem test_sta_indY_faults :
    faultOf (step (zState 0x0600 [0x91, 0xFF])) = some (.pointerStraddle 0xFF) ∧
    faultOf (step { zStateWith 0x0600 [0x91, 0x10] 0x10 [0xFF, 0xFF] with y := 0x01 }) =
      some (.addressOutOfRange .dataAddress) := by decide

/-- R76: the two other settings of INDY_FF. -/
theorem test_sta_indY_parameter :
    cell (step { zStateWith 0x0600 [0x91, 0xFF] 0xFF [0x34, 0x12] with a := 0x07, indyFF := .linear }) 0x1234 =
      some 0x07 ∧
    cell (step { zStateWith 0x0600 [0x91, 0xFF] 0xFF [0x34, 0x12] with a := 0x07, indyFF := .wrap }) 0x0034 =
      some 0x07 := by decide

/-- V-LD 3 and 12. -/
theorem test_lda_imm : view (step (zState 0x0600 [0xA9, 0x80])) =
      some ⟨0x80, 0, 0, false, false, true, 0x0602, 0xFF00⟩ ∧
    faultOf (step (zState 0xFFFE [0xA9, 0x01])) = some (.addressOutOfRange .pcIncrement) := by decide

/-- V-LD 5 and 7. -/
theorem test_ldx_ldy_imm : view (step { zState 0x0600 [0xA2, 0x00] with x := 0x09, n := true }) =
      some ⟨0, 0x00, 0, false, true, false, 0x0602, 0xFF00⟩ ∧
    view (step (zState 0x0600 [0xA0, 0xFF])) = some ⟨0, 0, 0xFF, false, false, true, 0x0602, 0xFF00⟩ := by decide

/-- V-LD 8, 9 and 10: a cell never written reads 0x00. -/
theorem test_lda_ldy_zp : view (step { zState 0x0600 [0xA5, 0x77] with a := 0x55 }) =
      some ⟨0, 0, 0, false, true, false, 0x0602, 0xFF00⟩ ∧
    view (step (zStateWith 0x0600 [0xA5, 0x10] 0x10 [0xC3])) =
      some ⟨0xC3, 0, 0, false, false, true, 0x0602, 0xFF00⟩ ∧
    view (step (zStateWith 0x0600 [0xA4, 0x20] 0x20 [0x90])) =
      some ⟨0, 0, 0x90, false, false, true, 0x0602, 0xFF00⟩ := by decide

/-- V-TR 1 and 3. -/
theorem test_tay_tya : view (step { zState 0x0600 [0xA8] with a := 0x80 }) =
      some ⟨0x80, 0, 0x80, false, false, true, 0x0601, 0xFF00⟩ ∧
    view (step { zState 0x0600 [0x98] with a := 0x55 }) = some ⟨0, 0, 0, false, true, false, 0x0601, 0xFF00⟩ := by decide

/-- V-TR 5 and 8: a wrap leaves Carry. -/
theorem test_iny_dey : view (step { zState 0x0600 [0xC8] with y := 0xFF, c := true }) =
      some ⟨0, 0, 0x00, true, true, false, 0x0601, 0xFF00⟩ ∧
    view (step (zState 0x0600 [0x88])) = some ⟨0, 0, 0xFF, false, false, true, 0x0601, 0xFF00⟩ := by decide

/-- V-TR 9 and 12. -/
theorem test_inx_dex : view (step { zState 0x0600 [0xE8] with x := 0xFF }) =
      some ⟨0, 0x00, 0, false, true, false, 0x0601, 0xFF00⟩ ∧
    view (step { zState 0x0600 [0xCA] with x := 0x80 }) = some ⟨0, 0x7F, 0, false, false, false, 0x0601, 0xFF00⟩ :=
  by decide

/-- V-MEM 2 and 3: no flag is written though the results are zero and negative. -/
theorem test_inc_dec_zp :
    cell (step (zStateWith 0x0600 [0xE6, 0x10] 0x10 [0xFF])) 0x10 = some 0x00 ∧
    view (step (zStateWith 0x0600 [0xE6, 0x10] 0x10 [0xFF])) = some ⟨0, 0, 0, false, false, false, 0x0602, 0xFF00⟩ ∧
    cell (step { zState 0x0600 [0xC6, 0x10] with z := true }) 0x10 = some 0xFF ∧
    view (step { zState 0x0600 [0xC6, 0x10] with z := true }) = some ⟨0, 0, 0, false, true, false, 0x0602, 0xFF00⟩ := by
  decide

/-- V-MEM 5: the instruction increments its own operand byte. -/
theorem test_inc_own_operand : cell (step (zState 0x0000 [0xE6, 0x01])) 0x0001 = some 0x02 := by decide

/-- V-CMP 2 and 3: only Z, both ways. -/
theorem test_cmp_imm : view (step { zState 0x0600 [0xC9, 0x20] with a := 0x10, c := true, z := true }) =
      some ⟨0x10, 0, 0, true, false, false, 0x0602, 0xFF00⟩ ∧
    view (step { zState 0x0600 [0xC9, 0x05] with a := 0x05, c := true, n := true }) =
      some ⟨0x05, 0, 0, true, true, true, 0x0602, 0xFF00⟩ := by decide

/-- V-CMP 4 and 6. -/
theorem test_cpx_cpy_imm : view (step { zState 0x0600 [0xE0, 0x04] with x := 0x03, c := true, z := true, n := true }) =
      some ⟨0, 0x03, 0, true, false, true, 0x0602, 0xFF00⟩ ∧
    view (step { zState 0x0600 [0xC0, 0x04] with y := 0x04 }) =
      some ⟨0, 0, 0x04, false, true, false, 0x0602, 0xFF00⟩ := by decide

/-- V-CMP 8: A is compared, Y only indexes. -/
theorem test_cmp_indY :
    view (step { State.reset with
      pc := 0x0600, a := 0x07, y := 0x01,
      mem := ((Memory.zero.writeList 0x0600 [0xD1, 0x10]).writeList 0x10 [0x00, 0x02]).write 0x0201 0x07 }) =
      some ⟨0x07, 0, 0x01, false, true, false, 0x0602, 0xFF00⟩ := by decide

/-- V-CMP 10 and 11. -/
theorem test_cmp_indY_faults :
    faultOf (step (zState 0x0600 [0xD1, 0xFF])) = some (.pointerStraddle 0xFF) ∧
    faultOf (step { zStateWith 0x0600 [0xD1, 0x10] 0x10 [0x01, 0xFF] with y := 0xFF }) =
      some (.addressOutOfRange .dataAddress) := by decide

/-- V-BR 1, 3, 7 and 8. -/
theorem test_beq : view (step { zState 0x0600 [0xF0, 0x7F] with z := true }) =
      some ⟨0, 0, 0, false, true, false, 0x0681, 0xFF00⟩ ∧
    view (step { zState 0x0600 [0xF0, 0x80] with z := true }) =
      some ⟨0, 0, 0, false, true, false, 0x0582, 0xFF00⟩ ∧
    faultOf (step { zState 0x0000 [0xF0, 0x80] with z := true }) = some (.addressOutOfRange .branchTarget) ∧
    view (step (zState 0x0000 [0xF0, 0x80])) = some ⟨0, 0, 0, false, false, false, 0x0002, 0xFF00⟩ := by decide

/-- V-BR 10, 11, 12 and 13. -/
theorem test_bne : view (step { zState 0x0600 [0xD0, 0xFE] with z := true }) =
      some ⟨0, 0, 0, false, true, false, 0x0602, 0xFF00⟩ ∧
    faultOf (step (zState 0xFFF0 [0xD0, 0x7F])) = some (.addressOutOfRange .branchTarget) ∧
    view (step (zState 0xFFF0 [0xD0, 0x0D])) = some ⟨0, 0, 0, false, false, false, 0xFFFF, 0xFF00⟩ ∧
    faultOf (step (zState 0xFFFE [0xD0, 0x00])) = some (.addressOutOfRange .pcIncrement) := by decide

/-- V-BR 14. -/
theorem test_nop : nextOf (step (zState 0x0600 [0xEA])) = some { zState 0x0600 [0xEA] with pc := 0x0601 } := by decide

/-- Scenario S6, and an illegal byte at FFFF (R127 (1)). -/
theorem test_unknown_opcode : faultOf (step (zState 0x0600 [0x02])) = some (.unknownOpcode 0x02) ∧
    faultOf (step (zState 0xFFFF [0x02])) = some (.addressOutOfRange .pcIncrement) := by decide

/-- V-HOST 1 to 5. -/
theorem test_host_calls :
    nextOf (hostAct .reset { zState 0x0700 [0x05] with a := 0x12, c := true, sp := 0xFF04 }) =
      some { zState 0x0700 [] with a := 0x12, c := true, sp := 0xFF04 } ∧
    nextOf (hostAct (.load [0xA9, 0x05] 0x0600) (zState 0x0602 [0xEA])) = some (zState 0x0600 [0xA9, 0x05, 0xEA]) ∧
    nextOf (hostAct (.load [] 0x0700) (zState 0x0602 [0xEA])) = some { zState 0x0602 [0xEA] with pc := 0x0700 } ∧
    nextOf (hostAct (.load [0x00, 0x00] 0xFFFE) (zState 0x0602 [])) = some (zState 0xFFFE []) ∧
    nextOf (hostAct (.load [0x00, 0x00] 0xFFFF) (zState 0x0602 [])) = none ∧
    nextOf (hostAct (.load [] 65536) (zState 0x0602 [])) = none := by decide

/-- R129, R144: `load_program` starts a new run after a Halt, and its first step is given; `reset()` alone starts
none. -/
theorem test_load_after_halt :
    nextOf (hostAct (.load [0xEA] 0x0600) { zState 0x0700 [] with halted := true }) = some (zState 0x0600 [0xEA]) ∧
    (nextOf (hostAct (.load [0xEA] 0x0600) { zState 0x0700 [] with halted := true })).bind (fun t => nextOf (step t)) =
      some { zState 0x0600 [0xEA] with pc := 0x0601 } ∧
    nextOf (hostAct .reset { zState 0x0700 [0x05] with halted := true }) =
      some { zState 0x0700 [] with halted := true } := by decide

/-- The word the host places is the instruction the next step runs. -/
theorem test_withFetchWord : view (step (State.reset.withFetchWord 16 0x05A9)) =
      some ⟨0x05, 0, 0, false, false, false, 0x0002, 0xFF00⟩ ∧
    view (step (State.reset.withFetchWord 8 0x4C)) = some ⟨0, 0, 0, false, false, false, 0x0000, 0xFF00⟩ := by decide

/-! ## Witnesses: a state and operands that meet the hypotheses of each obligation -/

/-- Fits at its boundary, for lengths 1, 2 and 3 (every completion statement). -/
theorem witness_fits : Fits (zState 0xFFFE []) 1 ∧ Fits (zState 0xFFFD []) 2 ∧ Fits (zState 0xFFFC []) 3 := by decide

/-- DecodeInvertsEncode: a one-to-one map, and well-formed instructions at the edges. -/
theorem witness_DecodeInvertsEncode :
    (∀ p ∈ Op.all, ∀ q ∈ Op.all, defaultOpcodeMap p = defaultOpcodeMap q → p = q) ∧ (∀ p : Op, p ∈ Op.all) ∧
    (Instr.beq (-128)).wellFormed = true ∧ (Instr.bne 127).wellFormed = true :=
  ⟨by decide, by intro p; cases p <;> decide, by decide, by decide⟩

theorem witness_DecodedBytesAreTheEncoding :
    decodeWith defaultOpcodeMap [0xD0, 0x80, 0x55] = .ok (.bne (-128)) := by decide

theorem witness_IllegalOpcodesFault :
    (zState 0xFFFE [0x02]).halted = false ∧ Fits (zState 0xFFFE [0x02]) 1 ∧
    (zState 0xFFFE [0x02]).mem.read (zState 0xFFFE [0x02]).pc.toNat = 0x02 ∧ ∀ o : Op, defaultOpcodeMap o ≠ 0x02 :=
  ⟨by decide, by decide, by decide, by intro o; cases o <;> decide⟩

theorem witness_BranchFixupRoundTrip :
    Fits (zState 0x0600 []) 2 ∧ branchOffset 0x0600 0x0681 = 127 ∧ branchOffset 0x0680 0x0602 = -128 ∧
    { zState 0x0680 [] with z := true }.z = true ∧ (zState 0x0600 []).z = false := by decide

theorem witness_StepRunsDecodedInstruction :
    (zState 0x0600 [0xA9, 0x05]).halted = false ∧
    decode (fetchWindow (zState 0x0600 [0xA9, 0x05])) = .ok (.ldaImm 0x05) ∧
    decode (fetchWindow (zState 0xFFFF [0xEA])) = .ok .nop := by decide

theorem witness_StepEqualsPseudocode : (zState 0xFEFF [0x20, 0x34, 0x12]).halted = false := by decide

/-- HaltExactlyAtBrk: a step that halts and one that does not. -/
theorem witness_HaltExactlyAtBrk :
    (∃ t, step (zState 0x0600 [0x00]) = .next t ∧ t.halted = true) ∧
    (∃ t, step (zState 0x0600 [0xEA]) = .next t ∧ t.halted = false) := ⟨⟨_, rfl, rfl⟩, ⟨_, rfl, rfl⟩⟩

theorem witness_OnlyHaltedRunsAreRefused :
    step { State.reset with halted := true } = .refused .stepAfterHalt := rfl

/-- CommonFetchFault: each clause at the first address where it holds. -/
theorem witness_CommonFetchFault :
    (Instr.nop.op ≠ .jsr ∧ 0xFFFF < (zState 0xFFFF []).pc.toNat + Instr.nop.length) ∧
    ((Instr.staAbs 0).op ≠ .jsr ∧ 0xFFFF < (zState 0xFFFD []).pc.toNat + (Instr.staAbs 0).length) ∧
    (zState 0xFFFF []).pc = 0xFFFF#16 ∧ (zState 0xFFFF []).halted = false ∧
    (lookup defaultOpcodeMap ((zState 0xFFFD [0x20]).mem.read 0xFFFD) = some .jsr ∧
      (zState 0xFFFD [0x20]).pc ≠ 0xFFFF#16 ∧ 0xFFFF < (zState 0xFFFD [0x20]).pc.toNat + Op.jsr.format.length) ∧
    (lookup defaultOpcodeMap ((zState 0xFFFE [0xA9]).mem.read 0xFFFE) = some .ldaImm ∧
      0xFFFF < (zState 0xFFFE [0xA9]).pc.toNat + Op.ldaImm.format.length) := by decide

theorem witness_ZeroByteHalts :
    (zState 0xFFFE []).halted = false ∧ Fits (zState 0xFFFE []) 1 ∧
    (zState 0xFFFE []).mem.read (zState 0xFFFE []).pc.toNat = 0x00 := by decide

/-- RegisterWritePath and RegisterFrames: an instruction of each class that completes. -/
theorem witness_register_writers :
    (∃ t, exec (.ldaImm 0) (zState 0x0600 []) = .next t) ∧ writesA .ldaImm = true ∧
    (∃ t, exec .inx (zState 0x0600 []) = .next t) ∧ writesX .inx = true ∧ writesA .inx = false ∧
    (∃ t, exec .tay (zState 0x0600 []) = .next t) ∧ writesY .tay = true ∧ writesX .tay = false ∧ writesY .inx = false :=
  ⟨⟨_, rfl⟩, rfl, ⟨_, rfl⟩, rfl, rfl, ⟨_, rfl⟩, rfl, rfl, rfl⟩

/-- JsrPushesAndJumps: room at the boundary, the cells apart and overlapping with the operand in memory, and the
faults at their first and last addresses. -/
theorem witness_JsrPushesAndJumps :
    (Fits (zState 0xFFFC []) 3 ∧ { zState 0xFFFC [] with sp := 0xFFFD }.sp.toNat ≤ 0xFFFD) ∧
    (zState 0x0600 []).pc.toNat + 2 < (zState 0x0600 []).sp.toNat ∧
    { zState 0x0600 [] with sp := 0x05FF }.sp.toNat + 1 < (zState 0x0600 []).pc.toNat + 1 ∧
    ((zState 0xFEFF [0x20, 0x34, 0x12]).mem.read 0xFF00 = BitVec.ofNat 8 ((0x1234#16).toNat % 256) ∧
      (zState 0xFEFF [0x20, 0x34, 0x12]).mem.read 0xFF01 = BitVec.ofNat 8 ((0x1234#16).toNat / 256)) ∧
    (0xFFFD ≤ (zState 0xFFFD []).pc.toNat ∧ (zState 0xFFFE []).pc ≠ 0xFFFF#16) ∧
    (Fits (zState 0xFFFC []) 3 ∧ 0xFFFE ≤ { zState 0xFFFC [] with sp := 0xFFFE }.sp.toNat) := by decide

/-- RtsPopsPc: one call outstanding, `sp` at 2, and the two empty cases. -/
theorem witness_RtsPopsPc :
    (let s := { zState 0x0600 [] with sp := 0xFF02 }
     Fits s 1 ∧ 2 ≤ s.sp.toNat ∧ s.sp ≠ s.spReset ∧ s.sp ≠ s.spReset + 1) ∧
    (let s := { zState 0x0600 [] with sp := 2, spReset := 0 }
     2 ≤ s.sp.toNat ∧ s.sp ≠ s.spReset ∧ s.sp ≠ s.spReset + 1) ∧
    (zState 0x0600 []).sp = (zState 0x0600 []).spReset ∧
    { zState 0x0600 [] with sp := 0xFF01 }.sp.toNat = (zState 0x0600 []).spReset.toNat + 1 := by decide

/-- ReturnFollowsCall: the state after the call, with `pc` at an RTS, is such a `u`. -/
theorem witness_ReturnFollowsCall :
    let s := zState 0x0600 []
    s.spReset.toNat ≤ s.sp.toNat ∧ ∃ t u, exec (.jsr 0x0604) s = .next t ∧ u = { t with pc := 0x0606 } ∧
      Fits u 1 ∧ u.sp = t.sp ∧ u.spReset = s.spReset ∧ u.mem.read s.sp.toNat = t.mem.read s.sp.toNat ∧
      u.mem.read (s.sp.toNat + 1) = t.mem.read (s.sp.toNat + 1) :=
  ⟨by decide, _, _, rfl, rfl, by decide, rfl, rfl, rfl, rfl⟩

/-- AdcChainAddsWords: the addends of program P6, whose low sum carries. -/
theorem witness_AdcChainAddsWords :
    let s := { zState 0x0603 [] with a := 0xF0 }
    Fits s 2 ∧ s.a = BitVec.ofNat 8 ((0x00F0#16).toNat % 256) ∧ s.c = false ∧
    ∃ t u, exec (.adcImm (BitVec.ofNat 8 ((0x0020#16).toNat % 256))) s = .next t ∧ u = { t with a := 0, pc := 0x0609 } ∧
      Fits u 2 ∧ u.a = BitVec.ofNat 8 ((0x00F0#16).toNat / 256) ∧ u.c = t.c :=
  ⟨by decide, rfl, rfl, _, _, rfl, rfl, by decide, rfl, rfl⟩

/-- StaAbsYStoresOrFaults: the sum at 0xFFFF and just above. -/
theorem witness_StaAbsYStoresOrFaults :
    Fits { zState 0 [] with y := 1 } 3 ∧ (0xFFFE#16).toNat + { zState 0 [] with y := 1 }.y.toNat ≤ 0xFFFF ∧
    0xFFFF < (0xFFFF#16).toNat + { zState 0 [] with y := 1 }.y.toNat := by decide

/-- StaIndYStoresOrFaults and CmpIndYComparesOrFaults: the highest operand with both bytes in the zero page, the sum
at 0xFFFF and just above, and operand 0xFF under the default parameter. -/
theorem witness_indirect :
    let s := zStateWith 0x0600 [] 0xFE [0xFE, 0xFF]
    Fits s 2 ∧ (0xFE#8 : Byte) ≠ 0xFF#8 ∧
    (s.mem.read 0xFF).toNat * 256 + (s.mem.read 0xFE).toNat + { s with y := 1 }.y.toNat ≤ 0xFFFF ∧
    0xFFFF < (s.mem.read 0xFF).toNat * 256 + (s.mem.read 0xFE).toNat + { s with y := 2 }.y.toNat ∧
    s.indyFF = .fault := by decide

/-- StraddlingPointerByParameter: both settings, the sum in range and out of range. -/
theorem witness_StraddlingPointerByParameter :
    let s := zStateWith 0x0600 [] 0xFF [0xFF, 0xFF]
    Fits { s with indyFF := .linear } 2 ∧ Fits { s with indyFF := .wrap } 2 ∧
    { s with indyFF := .linear }.indyFF = .linear ∧ { s with indyFF := .wrap }.indyFF = .wrap ∧
    (s.mem.read 0x0100).toNat * 256 + (s.mem.read 0xFF).toNat + s.y.toNat ≤ 0xFFFF ∧
    0xFFFF < (s.mem.read 0x0100).toNat * 256 + (s.mem.read 0xFF).toNat + { s with y := 1 }.y.toNat ∧
    (s.mem.read 0x0000).toNat * 256 + (s.mem.read 0xFF).toNat + s.y.toNat ≤ 0xFFFF ∧
    0xFFFF < ((s.mem.write 0 0xFF).read 0x0000).toNat * 256 + (s.mem.read 0xFF).toNat + { s with y := 1 }.y.toNat := by
  decide

/-- BranchesOnZero: targets 0, 0xFFFF, -1 and 0x10000. -/
theorem witness_BranchesOnZero :
    Fits (zState 0 []) 2 ∧ ((zState 0 []).pc.toNat : Int) + 2 + -2 = 0 ∧ ((zState 0 []).pc.toNat : Int) + 2 + -3 < 0 ∧
    Fits (zState 0xFFFD []) 2 ∧ ((zState 0xFFFD []).pc.toNat : Int) + 2 + 0 = 0xFFFF ∧
    0xFFFF < ((zState 0xFFFD []).pc.toNat : Int) + 2 + 1 ∧
    { zState 0 [] with z := true }.z = true ∧ (zState 0 []).z = false := by decide

/-- The flag, memory, `sp`, `pc` and parameter frames: instructions of each class that complete. -/
theorem witness_frames :
    (∃ t, exec .clc (zState 0x0600 []) = .next t) ∧ writesC .clc = true ∧
    (∃ t, exec (.adcImm 1) (zState 0x0600 []) = .next t) ∧ writesC .adcImm = true ∧
    (∃ t, exec (.cmpImm 1) (zState 0x0600 []) = .next t) ∧ isCompare .cmpImm = true ∧ writesReg .cmpImm = false ∧
    (∃ t, exec (.cmpIndY 0x10) (zState 0x0600 []) = .next t) ∧ eaIndY 0x10 (zState 0x0600 []) = .ok 0 ∧
    (∃ t, exec (.staIndY 0x10) (zState 0x0600 []) = .next t) ∧ writesMem .staIndY = true ∧
    (∃ t, exec (.jsr 0x0604) (zState 0x0600 []) = .next t) ∧ writesMem .jsr = true ∧
    (∃ t, exec .nop (zState 0x0600 []) = .next t) ∧ writesMem .nop = false ∧ writesC .nop = false ∧
    (∃ t, exec .rts { zState 0x0600 [] with sp := 0xFF02 } = .next t) ∧
    (∃ t, exec (.beq 2) { zState 0x0600 [] with z := true } = .next t) ∧
    (∃ t, exec (.bne 2) (zState 0x0600 []) = .next t) ∧ (∃ t, exec (.jmp 0x1000) (zState 0x0600 []) = .next t) :=
  ⟨⟨_, rfl⟩, rfl, ⟨_, rfl⟩, rfl, ⟨_, rfl⟩, rfl, rfl, ⟨_, rfl⟩, rfl, ⟨_, rfl⟩, rfl, ⟨_, rfl⟩, rfl, ⟨_, rfl⟩, rfl, rfl,
   ⟨_, rfl⟩, ⟨_, rfl⟩, ⟨_, rfl⟩, ⟨_, rfl⟩⟩

/-- MemoryFrameOfStores: an address outside the stored byte. -/
theorem witness_MemoryFrameOfStores :
    (∃ t, exec (.staZp 0x10) (zState 0x0600 []) = .next t) ∧ ¬ storesTo (.staZp 0x10) (zState 0x0600 []) (0x11 : Nat) ∧
    (∃ t, exec (.jsr 0x0604) (zState 0x0600 []) = .next t) ∧
    ¬ storesTo (.jsr 0x0604) (zState 0x0600 []) (0xFF02 : Nat) :=
  ⟨⟨_, rfl⟩, by simp [storesTo, eaZp], ⟨_, rfl⟩, by simp [storesTo, zState, State.reset, State.construct,
    launchDefaults, spResetDefault]⟩

/-- FaultsHaveTheirCauses: a fault of each kind from exec, in states that meet the premise. -/
theorem witness_FaultsHaveTheirCauses :
    (zState 0x0600 []).spReset.toNat ≤ (zState 0x0600 []).sp.toNat ∧
    faultOf (exec .nop (zState 0xFFFF [])) = some (.addressOutOfRange .pcIncrement) ∧
    faultOf (exec (.staAbsY 0xFFFF) { zState 0x0600 [] with y := 1 }) = some (.addressOutOfRange .dataAddress) ∧
    faultOf (exec (.bne (-3)) (zState 0 [])) = some (.addressOutOfRange .branchTarget) ∧
    faultOf (exec (.jsr 0) (zState 0xFFFD [])) = some (.addressOutOfRange .returnAddress) ∧
    faultOf (exec (.jsr 0) { zState 0x0600 [] with sp := 0xFFFE }) = some .stackOverflow ∧
    faultOf (exec .rts (zState 0x0600 [])) = some .stackUnderflow ∧
    faultOf (exec (.cmpIndY 0xFF) (zState 0x0600 [])) = some (.pointerStraddle 0xFF) := by decide

/-- MemoryReadsWhatWasWritten: both edges of memory and both sides outside. -/
theorem witness_MemoryReadsWhatWasWritten :
    ((0 : Int) ≤ 0 ∧ (0xFFFF : Int) ≤ 0xFFFF) ∧ ((-1 : Int) < 0 ∧ (0xFFFF : Int) < 0x10000) ∧
    State.reset.mem.wf = true := by decide

/-- CanonicalMemoriesAreExtensional: two ways to write the same two cells, one of them through a third cell that is
written back to zero. -/
theorem witness_CanonicalMemoriesAreExtensional :
    ((Memory.zero.write 1 7).write 2 9).wf = true ∧
    ((((Memory.zero.write 5 1).write 2 9).write 1 7).write 5 0).wf = true ∧
    ∀ a : Nat, ((Memory.zero.write 1 7).write 2 9).read a =
      ((((Memory.zero.write 5 1).write 2 9).write 1 7).write 5 0).read a :=
  ⟨by decide, by decide, fun _ => rfl⟩

/-- FetchSeesTheStore: STA abs at 0600 that writes INX's opcode, and an illegal one, at 0603. -/
theorem witness_FetchSeesTheStore :
    (∃ t, exec (.staAbs 0x0603) { zState 0x0600 [] with a := 0xE8 } = .next t ∧ t.pc = 0x0603 ∧ t.halted = false) ∧
    encode .inx = [0xE8] ∧ (0x0603 : Addr) ≠ 0xFFFF#16 ∧
    (∃ t, exec (.staAbs 0x0603) { zState 0x0600 [] with a := 0x02 } = .next t ∧ t.pc = 0x0603) ∧
    (∀ o : Op, defaultOpcodeMap o ≠ 0x02) :=
  ⟨⟨_, rfl, rfl, rfl⟩, by decide, by decide, ⟨_, rfl, rfl⟩, by intro o; cases o <;> decide⟩

/-- StoresWriteOneByte and FlagAsymmetry: each class completes (R115, R117). -/
theorem witness_stores_and_steps :
    (∃ t, exec (.stxZp 0x10) (zState 0x0600 []) = .next t) ∧ isStore .stxZp = true ∧
    (∃ t, exec (.staAbsY 0xFFFF) (zState 0x0600 []) = .next t) ∧ isStore .staAbsY = true ∧
    (∃ t, exec (.incZp 0x10) (zState 0x0600 []) = .next t) ∧ (∃ t, exec (.decZp 0x10) (zState 0x0600 []) = .next t) ∧
    (∃ t, exec .tay (zState 0x0600 []) = .next t) ∧ (∃ t, exec .tya (zState 0x0600 []) = .next t) ∧
    (∃ t, exec .iny (zState 0x0600 []) = .next t) ∧ (∃ t, exec .dey (zState 0x0600 []) = .next t) ∧
    (∃ t, exec .dex (zState 0x0600 []) = .next t) :=
  ⟨⟨_, rfl⟩, rfl, ⟨_, rfl⟩, rfl, ⟨_, rfl⟩, ⟨_, rfl⟩, ⟨_, rfl⟩, ⟨_, rfl⟩, ⟨_, rfl⟩, ⟨_, rfl⟩, ⟨_, rfl⟩⟩

/-- LoadProgramPlacesBytes: a load that ends at the last byte, and each way out of bounds. -/
theorem witness_LoadProgramPlacesBytes :
    ((0 : Int) ≤ 0xFFFE ∧ (0xFFFE : Int) ≤ 65535 ∧ (0xFFFE : Int) + (([1, 2] : List Byte).length : Int) ≤ 65536) ∧
    ([1, 2] : List Byte)[1]? = some 2 ∧
    (-1 : Int) < 0 ∧ (65535 : Int) < 65536 ∧ 65536 < (0xFFFF : Int) + (([1, 2] : List Byte).length : Int) := by decide

/-- StepKeepsInvariant and HostCallsKeepInvariant: a state inside a call meets the invariant, steps and is loaded. -/
theorem witness_invariant :
    Safety.Inv { zStateWith 0x0700 [0x60] 0xFF00 [0x03, 0x06] with sp := 0xFF02 } ∧
    (∃ t, step { zStateWith 0x0700 [0x60] 0xFF00 [0x03, 0x06] with sp := 0xFF02 } = .next t) ∧
    HostAction.load [0xEA] 0x0600 ≠ .advance ∧
    (∃ t, hostAct (.load [0xEA] 0x0600) { zStateWith 0x0700 [0x60] 0xFF00 [0x03, 0x06] with sp := 0xFF02 } = .next t) :=
  ⟨by unfold Safety.Inv; decide, ⟨_, rfl⟩, by decide, ⟨_, rfl⟩⟩

end Sys2Proof.Tests
end

/-! PROOFS. The register-write path and the constants of the machine (spec/00_scope.md R4, R5): lemmas on
`writeReg` and on `Effect`, then the two obligations, each a short use of `exec_effect`. -/

namespace Sys2Proof.Proofs

open Sys2Proof.Machine Sys2Proof.Safety

/-! ## The register-write path -/

/-- Z of a register write, in terms of the floored modulus (R12, D11). -/
theorem zeroFlag_truncByte (v : Int) : zeroFlag (truncByte v) = decide (v % 256 = 0) := by
  have hv := truncByte_toInt v
  simp only [zeroFlag, decide_eq_decide]
  omega

/-- N of a register write, in terms of the floored modulus (R12, D11). -/
theorem negativeFlag_truncByte (v : Int) : negativeFlag (truncByte v) = decide (v % 256 > 0x7F) := by
  have hv := truncByte_toInt v
  simp only [negativeFlag, decide_eq_decide]
  omega

/-- Z and N are those of the byte that the register holds (R12). -/
def FlagsDescribe (r : Reg) (t : State) : Prop :=
  t.z = zeroFlag (t.reg r) ∧ t.n = negativeFlag (t.reg r)

theorem flagsDescribe_writeReg (r : Reg) (v : Int) (s : State) : FlagsDescribe r (writeReg r v s) := by
  simp only [FlagsDescribe, writeReg_reg, writeReg_z, writeReg_n, and_self]

/-- The operations that write a register (the table of R11). -/
def writesOf : Reg → Op → Bool
  | .a => writesA
  | .x => writesX
  | .y => writesY

/-- A writer of a register ends with a write on the register-write path (R13). -/
theorem effect_ends_in_writeReg {r : Reg} {i : Instr} {s t : State} (hw : writesOf r i.op = true)
    (h : Effect i s t) : ∃ v u, t = writeReg r v u := by
  cases r with
  | a =>
    cases i with
    | ldaImm | ldaZp | tya | adcImm => exact ⟨_, _, h⟩
    | _ => cases hw
  | x =>
    cases i with
    | ldxImm | inx | dex => exact ⟨_, _, h⟩
    | _ => cases hw
  | y =>
    cases i with
    | ldyImm | ldyZp | tay | iny | dey => exact ⟨_, _, h⟩
    | _ => cases hw

/-- After a writer of a register completes, Z and N describe that register (R11, R12). -/
theorem exec_flagsDescribe {r : Reg} {i : Instr} {s t : State} (hw : writesOf r i.op = true)
    (h : exec i s = .next t) : FlagsDescribe r t := by
  obtain ⟨-, he⟩ := exec_effect h
  obtain ⟨v, u, rfl⟩ := effect_ends_in_writeReg hw he
  exact flagsDescribe_writeReg r v u

/-- Settles O13: the first half is the laws of `writeReg`, the second that every writer ends in `writeReg`. -/
theorem registerWritePath : Obligations.RegisterWritePath := by
  refine ⟨fun r v s => ⟨?_, ?_, ?_, ?_, ?_, ?_, ?_, ?_⟩, fun i s t h => ⟨?_, ?_, ?_⟩⟩
  · rw [writeReg_reg, truncByte_toInt]
  · rw [writeReg_z, zeroFlag_truncByte]
  · rw [writeReg_n, negativeFlag_truncByte]
  · exact writeReg_c r v s
  · exact writeReg_pc r v s
  · exact writeReg_sp r v s
  · exact writeReg_mem r v s
  · exact fun q hq => writeReg_reg_of_ne hq v s
  · exact fun hw => exec_flagsDescribe (r := .a) hw h
  · exact fun hw => exec_flagsDescribe (r := .x) hw h
  · exact fun hw => exec_flagsDescribe (r := .y) hw h

/-! ## The parameters and the Halt record -/

/-- No effect touches SP_RESET or INDY_FF, and BRK's alone sets the Halt record (R4, R80). -/
theorem effect_parameters {i : Instr} {s t : State} (h : Effect i s t) :
    t.spReset = s.spReset ∧ t.indyFF = s.indyFF ∧ t.halted = (decide (i = .brk) || s.halted) := by
  cases i with
  | jsr =>
    obtain ⟨-, -, h⟩ := h
    rw [h]
    exact ⟨rfl, rfl, rfl⟩
  | rts =>
    obtain ⟨-, -, -, -, rfl⟩ := h
    exact ⟨rfl, rfl, rfl⟩
  | staAbsY | staIndY | cmpIndY =>
    obtain ⟨-, -, -, rfl⟩ := h
    exact ⟨rfl, rfl, rfl⟩
  | beq =>
    simp only [Effect] at h
    split at h
    · obtain ⟨-, rfl⟩ := h
      exact ⟨rfl, rfl, rfl⟩
    · obtain rfl := h
      exact ⟨rfl, rfl, rfl⟩
  | bne =>
    simp only [Effect] at h
    split at h
    · obtain rfl := h
      exact ⟨rfl, rfl, rfl⟩
    · obtain ⟨-, rfl⟩ := h
      exact ⟨rfl, rfl, rfl⟩
  | _ =>
    obtain rfl := h
    exact ⟨rfl, rfl, rfl⟩

/-- Settles O47, from the inversion lemma of `exec` and the effects. -/
theorem parametersAreConstant : Obligations.ParametersAreConstant :=
  fun _ _ _ h => effect_parameters (exec_effect h).2

end Sys2Proof.Proofs

/-! PROOFS. The state items and the invariant (spec/10_state.md R11 to R27): the few ways an instruction can change
the state, then what an instruction cannot see of the flags, then the obligations. -/

namespace Sys2Proof.Proofs

open Sys2Proof.Machine Sys2Proof.Safety

/-! ## The ways an instruction can change the state -/

/-- The change an operation makes, `pc` left open: the state after it in terms of the state before. -/
inductive Change : Op → State → State → Prop
  /-- Nothing but `pc`: the jump, the branches and NOP. -/
  | moves (o : Op) (s : State) (pc : Addr) : Change o s { s with pc := pc }
  /-- BRK records the Halt (R80). -/
  | halts (s : State) (pc : Addr) : Change .brk s { s with pc := pc, halted := true }
  /-- CLC (R81). -/
  | clearsCarry (s : State) (pc : Addr) : Change .clc s { s with pc := pc, c := false }
  /-- A write on the register-write path (R13); ADC writes C before it (R85). -/
  | writesRegister {o : Op} {r : Reg} {c : Bool} (s : State) (pc : Addr) (v : Int) (hr : writesOf r o = true)
      (hc : writesC o = false → c = s.c) : Change o s (writeReg r v { s with pc := pc, c := c })
  /-- A compare writes Z (R118). -/
  | compares {o : Op} (s : State) (pc : Addr) (z : Bool) (ho : isCompare o = true) :
      Change o s { s with pc := pc, z := z }
  /-- A store or a memory step writes one cell (R115, R117). -/
  | writesCell {o : Op} {a : Nat} (s : State) (pc : Addr) (v : Byte) (ho : writesMem o = true)
      (ha : a < Config.memSize) : Change o s { s with pc := pc, mem := s.mem.write a v }
  /-- JSR pushes two bytes (R82). -/
  | calls (s : State) (pc : Addr) (lo hi : Byte) (h : s.sp ≠ 0xFFFF#16) (h' : s.sp + 1 ≠ 0xFFFF#16) :
      Change .jsr s { s with
        pc := pc, sp := s.sp + 1 + 1, mem := (s.mem.write s.sp.toNat lo).write (s.sp + 1).toNat hi }
  /-- RTS pops two bytes (R84). -/
  | returns (s : State) (pc : Addr) (h : s.sp ≠ s.spReset) (h0 : s.sp ≠ 0#16) (h' : s.sp - 1 ≠ s.spReset)
      (h0' : s.sp - 1 ≠ 0#16) : Change .rts s { s with pc := pc, sp := s.sp - 1 - 1 }

/-- The effect of every instruction is one of these changes. -/
theorem effect_change {i : Instr} {s t : State} (h : Effect i s t) : Change i.op s t := by
  cases i with
  | brk => obtain rfl := h; exact .halts s _
  | clc => obtain rfl := h; exact .clearsCarry s _
  | jsr =>
    obtain ⟨h1, h2, h⟩ := h
    rw [h]
    exact .calls s _ _ _ h1 h2
  | rts =>
    obtain ⟨h1, h2, h3, h4, rfl⟩ := h
    exact .returns s _ h1 h2 h3 h4
  | adcImm => obtain rfl := h; exact .writesRegister (r := .a) s _ _ rfl nofun
  | ldaImm | ldaZp | tya => obtain rfl := h; exact .writesRegister (r := .a) s _ _ rfl fun _ => rfl
  | ldxImm | inx | dex => obtain rfl := h; exact .writesRegister (r := .x) s _ _ rfl fun _ => rfl
  | ldyImm | ldyZp | tay | iny | dey => obtain rfl := h; exact .writesRegister (r := .y) s _ _ rfl fun _ => rfl
  | cmpImm | cpxImm | cpyImm => obtain rfl := h; exact .compares s _ _ rfl
  | cmpIndY =>
    obtain ⟨-, -, -, rfl⟩ := h
    exact .compares s _ _ rfl
  | staZp zp | stxZp zp | incZp zp | decZp zp =>
    obtain rfl := h
    exact .writesCell s _ _ rfl (Nat.lt_trans zp.isLt (by decide))
  | staAbs addr => obtain rfl := h; exact .writesCell s _ _ rfl addr.isLt
  | staAbsY | staIndY =>
    obtain ⟨ea, -, hr, rfl⟩ := h
    exact .writesCell s _ _ rfl (by simp only [Config.memSize]; omega)
  | jmp | nop => obtain rfl := h; exact .moves _ s _
  | beq =>
    simp only [Effect] at h
    split at h
    · obtain ⟨-, rfl⟩ := h; exact .moves _ s _
    · obtain rfl := h; exact .moves _ s _
  | bne =>
    simp only [Effect] at h
    split at h
    · obtain rfl := h; exact .moves _ s _
    · obtain ⟨-, rfl⟩ := h; exact .moves _ s _

/-- An instruction that completes makes one of these changes. -/
theorem exec_change {i : Instr} {s t : State} (h : exec i s = .next t) : Change i.op s t :=
  effect_change (exec_effect h).2

section Frames

variable {o : Op} {s t : State}

/-- A value register changes only by its writers (R11, R13). -/
theorem Change.reg_frame {r : Reg} (h : Change o s t) (hr : writesOf r o = false) : t.reg r = s.reg r := by
  cases h with
  | @writesRegister _ q _ _ pc v hq =>
    have hne : r ≠ q := by rintro rfl; simp [hr] at hq
    rw [writeReg_reg_of_ne hne]
    cases r <;> rfl
  | _ => cases r <;> rfl

/-- C changes only by its writers (R20). -/
theorem Change.c_frame (h : Change o s t) (ho : writesC o = false) : t.c = s.c := by
  cases h with
  | clearsCarry => cases ho
  | writesRegister _ _ v hr hc => rw [writeReg_c]; exact hc ho
  | _ => rfl

/-- A writer of one of the registers is a register writer. -/
theorem writesReg_of_writesOf {r : Reg} (h : writesOf r o = true) : writesReg o = true := by
  cases r <;> simp only [writesOf] at h <;> simp [writesReg, h]

/-- Z changes only by register writes and compares (R21). -/
theorem Change.z_frame (h : Change o s t) (ho : writesReg o = false) (hc : isCompare o = false) : t.z = s.z := by
  cases h with
  | writesRegister _ _ v hr => rw [writesReg_of_writesOf hr] at ho; cases ho
  | compares _ _ _ hco => rw [hco] at hc; cases hc
  | _ => rfl

/-- N changes only by register writes (R22). -/
theorem Change.n_frame (h : Change o s t) (ho : writesReg o = false) : t.n = s.n := by
  cases h with
  | writesRegister _ _ v hr => rw [writesReg_of_writesOf hr] at ho; cases ho
  | _ => rfl

/-- `sp` changes only by JSR and RTS (R24). -/
theorem Change.sp_frame (h : Change o s t) (hj : o ≠ .jsr) (hr : o ≠ .rts) : t.sp = s.sp := by
  cases h with
  | calls => exact absurd rfl hj
  | returns => exact absurd rfl hr
  | writesRegister => rw [writeReg_sp]
  | _ => rfl

end Frames

/-! ## Addresses as numbers -/

/-- Two pushes that succeed do not wrap `sp` (R25). -/
theorem toNat_add_one_add_one {v : Addr} (h : v ≠ 0xFFFF#16) (h' : v + 1 ≠ 0xFFFF#16) :
    (v + 1 + 1).toNat = v.toNat + 2 := by
  bv_omega

/-- Two pops that succeed do not wrap `sp` (R26). -/
theorem toNat_sub_one_sub_one {v : Addr} (h : v ≠ 0#16) (h' : v - 1 ≠ 0#16) :
    (v - 1 - 1).toNat + 2 = v.toNat := by
  bv_omega

/-- `pc` after fetches that succeed (R18). -/
theorem toNat_add_ofNat {v : Addr} {n : Nat} (h : v.toNat + n ≤ 0xFFFF) :
    (v + BitVec.ofNat 16 n).toNat = v.toNat + n := by
  rw [BitVec.toNat_add, BitVec.toNat_ofNat]
  omega

/-- An integer in the address range is its address. -/
theorem toNat_ofInt_addr {v : Int} (h : 0 ≤ v) (h' : v ≤ 0xFFFF) : ((BitVec.ofInt 16 v).toNat : Int) = v := by
  rw [BitVec.toNat_ofInt]
  omega

/-! ## The invariant -/

/-- Construction meets the invariant (R27, R140). -/
theorem inv_construct (l : Launch) : Inv (State.construct l) :=
  ⟨Memory.wf_zero, Nat.le_refl _, by simp⟩

/-- Every change keeps the invariant. -/
theorem Change.keeps_inv {o : Op} {s t : State} (h : Change o s t) (hs : Inv s) : Inv t := by
  obtain ⟨hm, hle, heven⟩ := hs
  cases h with
  | writesRegister =>
    simpa only [Safety.Inv, writeReg_mem, writeReg_sp, writeReg_spReset] using And.intro hm ⟨hle, heven⟩
  | writesCell _ _ v _ ha => exact ⟨Memory.wf_write v ha hm, hle, heven⟩
  | calls _ _ lo hi h h' =>
    have hsp := toNat_add_one_add_one h h'
    refine ⟨Memory.wf_write hi (s.sp + 1).isLt (Memory.wf_write lo s.sp.isLt hm), ?_, ?_⟩
    · simp only [hsp]; omega
    · simp only [hsp]; omega
  | returns _ _ h h0 _ h0' =>
    have hsp := toNat_sub_one_sub_one h0 h0'
    have hne : s.sp.toNat ≠ s.spReset.toNat := fun e => h (BitVec.eq_of_toNat_eq e)
    refine ⟨hm, ?_, ?_⟩
    · show s.spReset.toNat ≤ (s.sp - 1 - 1).toNat
      omega
    · show ((s.sp - 1 - 1).toNat - s.spReset.toNat) % 2 = 0
      omega
  | _ => exact ⟨hm, hle, heven⟩

/-- A step that answers a next state has run an instruction. -/
theorem stepWith_runs {m : OpcodeMap} {s t : State} (h : stepWith m s = .next t) : ∃ i, exec i s = .next t := by
  unfold stepWith advanceWith at h
  split at h
  · cases h
  · split at h
    · cases h
    · split at h
      · exact ⟨_, h⟩
      all_goals cases h

/-- Settles O56: the step runs an instruction, the instruction makes a change, and every change keeps `Inv`. -/
theorem stepKeepsInvariant : Obligations.StepKeepsInvariant := by
  intro s t hs h
  obtain ⟨i, hi⟩ := stepWith_runs h
  exact (exec_change hi).keeps_inv hs

/-- Settles O55, from `inv_construct`. -/
theorem constructionMeetsInvariant : Obligations.ConstructionMeetsInvariant :=
  ⟨fun l => ⟨inv_construct l, rfl⟩, inv_construct launchDefaults⟩

/-- A load in bounds keeps the invariant (R142). -/
theorem loadProgram_keeps_inv {bytes : List Byte} {start : Int} {s t : State} (hs : Inv s)
    (h : loadProgram bytes start s = .next t) : Inv t := by
  obtain ⟨hm, hsp⟩ := hs
  unfold loadProgram at h
  split at h
  · cases h
    exact ⟨Memory.wf_writeList bytes (by simp only [Config.memSize]; omega) hm, hsp⟩
  · cases h

/-- Settles O57, one case for each of the host's calls. -/
theorem hostCallsKeepInvariant : Obligations.HostCallsKeepInvariant := by
  intro h s t hne hs ht
  cases h with
  | construct l => cases ht; exact inv_construct l
  | reset => cases ht; exact ⟨Memory.wf_zero, hs.2⟩
  | load bytes start => exact loadProgram_keeps_inv hs ht
  | advance => exact absurd rfl hne
  | inspect => cases ht; exact hs

/-! ## What an instruction writes -/

/-- Settles O37, the frames of the three registers. -/
theorem registerFrames : Obligations.RegisterFrames := fun _ _ _ h =>
  ⟨(exec_change h).reg_frame (r := .a), (exec_change h).reg_frame (r := .x), (exec_change h).reg_frame (r := .y)⟩

/-- A compare changes only Z and `pc` (R118). -/
theorem effect_compare {i : Instr} {s t : State} (hi : isCompare i.op = true) (h : Effect i s t) :
    t = { s with z := t.z, pc := t.pc } := by
  cases i with
  | cmpImm | cpxImm | cpyImm => obtain rfl := h; rfl
  | cmpIndY => obtain ⟨-, -, -, rfl⟩ := h; rfl
  | _ => cases hi

/-- A memory step changes only memory and `pc` (R117). -/
theorem effect_memoryStep {i : Instr} {s t : State} (hi : i.op = .incZp ∨ i.op = .decZp) (h : Effect i s t) :
    t = { s with mem := t.mem, pc := t.pc } := by
  cases i with
  | incZp | decZp => obtain rfl := h; rfl
  | _ => rcases hi with hi | hi <;> cases hi

/-- Settles O38: the two memory classes by their frames, the six register instructions by their effects. -/
theorem flagAsymmetry : Obligations.FlagAsymmetry := by
  intro i s t h
  obtain ⟨-, he⟩ := exec_effect h
  refine ⟨fun hi => effect_compare hi he, fun hi => effect_memoryStep hi he, ?_, ?_, ?_, ?_, ?_, ?_⟩ <;>
  · rintro rfl
    obtain rfl := he
    rfl

/-- Settles O43: the frame of `sp`, then the two moves. -/
theorem stackPointerMovesByCallAndReturn : Obligations.StackPointerMovesByCallAndReturn := by
  intro i s t h
  obtain ⟨-, he⟩ := exec_effect h
  refine ⟨(exec_change h).sp_frame, fun hi => ?_, fun hi => ?_⟩
  · cases i with
    | jsr =>
      obtain ⟨h1, h2, he⟩ := he
      rw [he]
      exact toNat_add_one_add_one h1 h2
    | _ => cases hi
  · cases i with
    | rts =>
      obtain ⟨-, h1, -, h2, rfl⟩ := he
      exact toNat_sub_one_sub_one h1 h2
    | _ => cases hi

/-! ## Where `pc` goes -/

/-- JSR leaves `pc` at its operand as the pushes have left it (R82, D14). -/
theorem execJsr_pc {target : Addr} {s t : State} (h : execJsr target s = .next t) :
    t.pc = joinBytes (operandAfterPush s t (s.pc.toNat + 2) (hiByte target))
      (operandAfterPush s t (s.pc.toNat + 1) (loByte target)) := by
  obtain ⟨-, h⟩ := deliver_consume_bind h
  simp only [] at h
  split at h
  · cases h
  · obtain ⟨s2, -, h⟩ := bind_eq_ok.mp h
    obtain ⟨s3, -, h⟩ := bind_eq_ok.mp h
    obtain ⟨s4, h4, h⟩ := bind_eq_ok.mp h
    obtain ⟨-, rfl⟩ := consume_eq_ok.mp h4
    cases h
    rfl

/-- An operand byte that no push overwrites is the one the decoder read. -/
theorem operandAfterPush_of_ne {s t : State} {a : Nat} (b : Byte) (h : a ≠ s.sp.toNat) (h' : a ≠ s.sp.toNat + 1) :
    operandAfterPush s t a b = b :=
  if_neg (not_or.mpr ⟨h, h'⟩)

/-- An instruction that is no jump, call, return or branch leaves `pc` after its bytes (R15). -/
theorem effect_pc_of_sequential {i : Instr} {s t : State} (h : Effect i s t) (hjmp : i.op ≠ .jmp) (hjsr : i.op ≠ .jsr)
    (hrts : i.op ≠ .rts) (hbeq : i.op ≠ .beq) (hbne : i.op ≠ .bne) : t.pc = s.pc + BitVec.ofNat 16 i.length := by
  cases i with
  | jmp => exact absurd rfl hjmp
  | jsr => exact absurd rfl hjsr
  | rts => exact absurd rfl hrts
  | beq => exact absurd rfl hbeq
  | bne => exact absurd rfl hbne
  | staAbsY | staIndY | cmpIndY => obtain ⟨-, -, -, rfl⟩ := h; rfl
  | _ => obtain rfl := h; rfl

/-- `pc` after BEQ (R110, R113). -/
theorem effect_beq_pc {off : Int} {s t : State} (hf : s.pc.toNat + 2 ≤ 0xFFFF) (h : Effect (.beq off) s t) :
    (t.pc.toNat : Int) = (s.pc.toNat : Int) + 2 + (if s.z then off else 0) := by
  have hpc : (s.pc + 2).toNat = s.pc.toNat + 2 := toNat_add_ofNat hf
  simp only [Effect] at h
  split at h <;> rename_i hz
  · obtain ⟨⟨h0, h1⟩, rfl⟩ := h
    rw [if_pos hz, toNat_ofInt_addr h0 h1]
    omega
  · obtain rfl := h
    rw [if_neg hz]
    show ((s.pc + 2).toNat : Int) = _
    omega

/-- `pc` after BNE (R111, R113). -/
theorem effect_bne_pc {off : Int} {s t : State} (hf : s.pc.toNat + 2 ≤ 0xFFFF) (h : Effect (.bne off) s t) :
    (t.pc.toNat : Int) = (s.pc.toNat : Int) + 2 + (if s.z then 0 else off) := by
  have hpc : (s.pc + 2).toNat = s.pc.toNat + 2 := toNat_add_ofNat hf
  simp only [Effect] at h
  split at h <;> rename_i hz
  · obtain rfl := h
    rw [if_pos hz]
    show ((s.pc + 2).toNat : Int) = _
    omega
  · obtain ⟨⟨h0, h1⟩, rfl⟩ := h
    rw [if_neg hz, toNat_ofInt_addr h0 h1]
    omega

/-- Settles O46, one part for each kind of control transfer. -/
theorem pcAfterEachInstruction : Obligations.PcAfterEachInstruction := by
  intro i s t h
  obtain ⟨hf, he⟩ := exec_effect h
  refine ⟨?_, ?_, ?_, ?_, ?_, ?_⟩
  · rintro a rfl
    obtain rfl := he
    rfl
  · rintro a rfl hno
    rw [execJsr_pc h, operandAfterPush_of_ne _ (by omega) (by omega), operandAfterPush_of_ne _ (by omega) (by omega),
      joinBytes_hiByte_loByte]
  · rintro rfl
    obtain ⟨-, h0, -, -, rfl⟩ := he
    have hsp : (s.sp - 1).toNat - 1 = s.sp.toNat - 2 := by bv_omega
    rw [joinBytes_toNat, hsp]
  · rintro off rfl
    exact effect_beq_pc hf he
  · rintro off rfl
    exact effect_bne_pc hf he
  · intro hjmp hjsr hrts hbeq hbne
    rw [effect_pc_of_sequential he hjmp hjsr hrts hbeq hbne, toNat_add_ofNat hf]

/-! ## What an instruction cannot see of the flags -/

/-- The three flags (R20 to R22). -/
inductive Flag where
  | c | z | n

/-- The state with a flag hidden. -/
def Flag.hide : Flag → State → State
  | .c => hideC
  | .z => hideZ
  | .n => hideN

/-- The operations that read a flag: ADC reads C, BEQ and BNE read Z, and none reads N (R20 to R22). -/
def Flag.readBy : Flag → Op → Prop
  | .c, o => o = .adcImm
  | .z, o => o = .beq ∨ o = .bne
  | .n, _ => False

/-- Two results are the same but for a flag. -/
def Alike (f : Flag) (r r' : Res State) : Prop := r.map f.hide = r'.map f.hide

section Hidden

variable (f : Flag) (s : State)

@[simp] theorem Flag.hide_a : (f.hide s).a = s.a := by cases f <;> rfl

@[simp] theorem Flag.hide_x : (f.hide s).x = s.x := by cases f <;> rfl

@[simp] theorem Flag.hide_pc : (f.hide s).pc = s.pc := by cases f <;> rfl

@[simp] theorem Flag.hide_sp : (f.hide s).sp = s.sp := by cases f <;> rfl

@[simp] theorem Flag.hide_spReset : (f.hide s).spReset = s.spReset := by cases f <;> rfl

/-! Every operation that changes the state commutes with hiding a flag; one that reads it does not see the flag. -/

theorem memRead_hide (a : Int) : memRead a (f.hide s) = memRead a s := by
  cases f <;> rfl

theorem eaAbsY_hide (addr : Addr) : eaAbsY addr (f.hide s) = eaAbsY addr s := by
  cases f <;> rfl

theorem eaIndY_hide (zp : Byte) : eaIndY zp (f.hide s) = eaIndY zp s := by
  cases f <;> rfl

theorem consume_hide (n : Nat) : consume n (f.hide s) = (consume n s).map f.hide := by
  simp only [consume_eq, Flag.hide_pc]
  split
  · cases f <;> rfl
  · rfl

theorem memWrite_hide (a : Int) (v : Byte) : memWrite a v (f.hide s) = (memWrite a v s).map f.hide := by
  unfold memWrite
  split
  · rfl
  · cases f <;> rfl

theorem push8_hide (v : Byte) : push8 v (f.hide s) = (push8 v s).map f.hide := by
  unfold push8
  rw [Flag.hide_sp, memWrite_hide]
  split
  · rfl
  · cases memWrite s.sp.toNat v s with
    | error => rfl
    | ok => cases f <;> rfl

theorem pop8_hide : pop8 (f.hide s) = (pop8 s).map fun p => (p.1, f.hide p.2) := by
  unfold pop8
  rw [Flag.hide_sp, Flag.hide_spReset, memRead_hide]
  split
  · rfl
  · cases memRead ((s.sp.toNat : Int) - 1) s with
    | error => rfl
    | ok => cases f <;> rfl

theorem branchIf_hide (taken : Bool) (off : Int) :
    branchIf taken off (f.hide s) = (branchIf taken off s).map f.hide := by
  cases taken with
  | false => rfl
  | true =>
    simp only [branchIf, branchTo, if_true, Flag.hide_pc]
    split
    · rfl
    · cases f <;> rfl

end Hidden

section Alike

variable {f : Flag}

theorem alike_of_eq_map {r r' : Res State} (h : r' = r.map f.hide) : Alike f r' r := by
  subst h
  cases r with
  | error => rfl
  | ok => cases f <;> rfl

/-- Sequences are alike when their first operations commute and the rests are alike. -/
theorem alike_bind {α : Type} {g : α → α} {r r' : Res α} {k k' : α → Res State} (hr : r' = r.map g)
    (hk : ∀ a, Alike f (k' (g a)) (k a)) : Alike f (r' >>= k') (r >>= k) := by
  subst hr
  cases r with
  | error => rfl
  | ok a => exact hk a

/-- Sequences are alike when they begin with the same value and the rests are alike. -/
theorem alike_bind_value {α : Type} {r r' : Res α} {k k' : α → Res State} (hr : r' = r)
    (hk : ∀ a, Alike f (k' a) (k a)) : Alike f (r' >>= k') (r >>= k) := by
  subst hr
  cases r' with
  | error => rfl
  | ok a => exact hk a

theorem mapNext_deliver (g : State → State) (r : Res State) : mapNext g (deliver r) = deliver (r.map g) := by
  cases r <;> rfl

theorem mapNext_deliver_of_alike {r r' : Res State} (h : Alike f r' r) :
    mapNext f.hide (deliver r') = mapNext f.hide (deliver r) := by
  rw [mapNext_deliver, mapNext_deliver, h]

/-- Instructions that begin with the fetch of the same bytes are alike when the rests are. -/
theorem fetch_then_alike {n : Nat} {s : State} {k k' : State → Res State} (hk : ∀ u, Alike f (k' (f.hide u)) (k u)) :
    mapNext f.hide (deliver (consume n (f.hide s) >>= k')) = mapNext f.hide (deliver (consume n s >>= k)) :=
  mapNext_deliver_of_alike (alike_bind (consume_hide f s n) hk)

theorem memWrite_alike (ea : Int) (v : Byte) (s : State) : Alike f (memWrite ea v (f.hide s)) (memWrite ea v s) :=
  alike_of_eq_map (memWrite_hide f s ea v)

theorem execJsr_hide (target : Addr) (s : State) :
    mapNext f.hide (execJsr target (f.hide s)) = mapNext f.hide (execJsr target s) := by
  refine fetch_then_alike fun u => ?_
  simp only [Flag.hide_pc]
  split
  · rfl
  · exact alike_bind (push8_hide f u _) fun u2 => alike_bind (push8_hide f u2 _) fun u3 =>
      alike_bind (consume_hide f u3 2) fun u4 => by cases f <;> rfl

theorem execRts_hide (s : State) : mapNext f.hide (execRts (f.hide s)) = mapNext f.hide (execRts s) :=
  fetch_then_alike fun u => alike_bind (pop8_hide f u) fun ⟨_, u2⟩ => alike_bind (pop8_hide f u2) fun _ => by
    cases f <;> rfl

/-- An instruction that does not read a flag has the same outcome, but for that flag, when the flag is hidden. -/
theorem exec_hide {i : Instr} (hr : ¬ f.readBy i.op) (s : State) :
    mapNext f.hide (exec i (f.hide s)) = mapNext f.hide (exec i s) := by
  cases i with
  | jsr target => exact execJsr_hide target s
  | rts => exact execRts_hide s
  | nop => exact mapNext_deliver_of_alike (alike_of_eq_map (consume_hide f s 1))
  | adcImm =>
    refine fetch_then_alike fun u => ?_
    cases f with
    | c => exact absurd rfl hr
    | z | n => rfl
  | beq off =>
    refine fetch_then_alike fun u => ?_
    cases f with
    | z => exact absurd (.inl rfl) hr
    | c => exact alike_of_eq_map (branchIf_hide .c u u.z off)
    | n => exact alike_of_eq_map (branchIf_hide .n u u.z off)
  | bne off =>
    refine fetch_then_alike fun u => ?_
    cases f with
    | z => exact absurd (.inr rfl) hr
    | c => exact alike_of_eq_map (branchIf_hide .c u (!u.z) off)
    | n => exact alike_of_eq_map (branchIf_hide .n u (!u.z) off)
  | staZp | stxZp | staAbs =>
    refine fetch_then_alike fun u => ?_
    simp only [Flag.hide_a, Flag.hide_x]
    exact memWrite_alike _ _ u
  | staAbsY addr =>
    refine fetch_then_alike fun u => alike_bind_value (eaAbsY_hide f u addr) fun ea => ?_
    rw [Flag.hide_a]
    exact memWrite_alike ea _ u
  | staIndY zp =>
    refine fetch_then_alike fun u => alike_bind_value (eaIndY_hide f u zp) fun ea => ?_
    rw [Flag.hide_a]
    exact memWrite_alike ea _ u
  | incZp | decZp =>
    exact fetch_then_alike fun u => alike_bind_value (memRead_hide f u _) fun v => memWrite_alike _ _ u
  | ldaZp | ldyZp =>
    exact fetch_then_alike fun u => alike_bind_value (memRead_hide f u _) fun v => by cases f <;> rfl
  | cmpIndY zp =>
    exact fetch_then_alike fun u => alike_bind_value (eaIndY_hide f u zp) fun ea =>
      alike_bind_value (memRead_hide f u ea) fun m => by cases f <;> rfl
  | _ => exact fetch_then_alike fun u => by cases f <;> rfl

/-- Whatever the flag was, the outcome is the same but for it, for states that differ in it alone. -/
theorem exec_alike {i : Instr} (hr : ¬ f.readBy i.op) {s s' : State} (h : f.hide s' = f.hide s) :
    mapNext f.hide (exec i s') = mapNext f.hide (exec i s) := by
  rw [← exec_hide hr s', h, exec_hide hr s]

end Alike

/-! ## The flags -/

/-- Settles O40: the frame of C, its two writers, and that only ADC sees C. -/
theorem carryDiscipline : Obligations.CarryDiscipline := by
  refine ⟨fun i s t h => ⟨(exec_change h).c_frame, ?_, ?_⟩,
    fun i s b hi => exec_alike (f := .c) hi (s := s) (s' := { s with c := b }) rfl⟩
  · rintro rfl
    obtain ⟨-, rfl⟩ := exec_effect h
    rfl
  · rintro imm rfl
    obtain ⟨-, rfl⟩ := exec_effect h
    rw [writeReg_c]
    rfl

/-- A byte is zero as a number exactly when it is the zero byte (R12). -/
theorem zeroFlag_eq (w : Byte) : zeroFlag w = decide (w = 0#8) :=
  decide_eq_decide.mpr (BitVec.toNat_eq (y := 0#8)).symm

/-- After a writer of a register, Z says whether the register is 0 (R12, R21). -/
theorem exec_z_of_writer {r : Reg} {i : Instr} {s t : State} (h : exec i s = .next t) (hw : writesOf r i.op = true) :
    t.z = decide (t.reg r = 0#8) :=
  (exec_flagsDescribe hw h).1.trans (zeroFlag_eq _)

/-- Settles O41: the frame of Z, its writers, and that only BEQ and BNE see Z. -/
theorem zeroFlagDiscipline : Obligations.ZeroFlagDiscipline := by
  refine ⟨fun i s t h => ⟨(exec_change h).z_frame, exec_z_of_writer (r := .a) h, exec_z_of_writer (r := .x) h,
      exec_z_of_writer (r := .y) h, ?_, ?_, ?_, ?_⟩,
    fun i s b hq hn => exec_alike (f := .z) (not_or.mpr ⟨hq, hn⟩) (s := s) (s' := { s with z := b }) rfl⟩
  · rintro v rfl
    obtain ⟨-, rfl⟩ := exec_effect h
    rfl
  · rintro v rfl
    obtain ⟨-, rfl⟩ := exec_effect h
    rfl
  · rintro v rfl
    obtain ⟨-, rfl⟩ := exec_effect h
    rfl
  · rintro zp ea rfl hea
    obtain ⟨-, ea', hea', -, rfl⟩ := exec_effect h
    obtain rfl : ea = ea' := Except.ok.inj (hea.symm.trans hea')
    rfl

/-- After a writer of a register, N says whether the register exceeds 0x7F (R12, R22). -/
theorem exec_n_of_writer {r : Reg} {i : Instr} {s t : State} (h : exec i s = .next t) (hw : writesOf r i.op = true) :
    t.n = decide ((t.reg r).toNat > 0x7F) :=
  (exec_flagsDescribe hw h).2

/-- Settles O42: the frame of N, its writers, and that no instruction sees N. -/
theorem negativeFlagDiscipline : Obligations.NegativeFlagDiscipline :=
  ⟨fun _ _ _ h => ⟨(exec_change h).n_frame, exec_n_of_writer (r := .a) h, exec_n_of_writer (r := .x) h,
      exec_n_of_writer (r := .y) h⟩,
    fun _ s b => exec_alike (f := .n) id (s := s) (s' := { s with n := b }) rfl⟩

end Sys2Proof.Proofs

/-! PROOFS. Memory (spec/20_memory.md R32 to R36, R45): the two primitives, the canonical form, what an instruction
leaves of memory, and the fetch of a byte just stored. -/

namespace Sys2Proof.Proofs

open Sys2Proof.Machine Sys2Proof.Safety

/-! ## The two primitives -/

/-- After a write, a read of any other integer address answers as before, a fault included (R34, R35). -/
theorem memRead_write_of_ne {a b : Int} (hne : b ≠ a) (ha : 0 ≤ a) (v : Byte) (s : State) :
    memRead b { s with mem := s.mem.write a.toNat v } = memRead b s := by
  by_cases hb : b < 0 ∨ b > 0xFFFF
  · exact (memRead_eq_error.mpr ⟨hb, rfl⟩).trans (memRead_eq_error.mpr ⟨hb, rfl⟩).symm
  · have hcell : b.toNat ≠ a.toNat := by omega
    rw [memRead_eq (by omega) (by omega), memRead_eq (by omega) (by omega)]
    exact congrArg Except.ok (Memory.read_write_of_ne hcell s.mem v)

/-- Settles O49, from the laws of the two primitives inside and outside 0..0xFFFF. -/
theorem memoryReadsWhatWasWritten : Obligations.MemoryReadsWhatWasWritten := by
  refine ⟨fun addr v s h0 h1 => ⟨_, memWrite_eq h0 h1 v s, ?_, ?_, rfl, ?_⟩, fun addr v s h => ⟨?_, ?_⟩⟩
  · rw [memRead_eq h0 h1, Memory.read_write_self]
  · exact fun b hb => memRead_write_of_ne hb h0 v s
  · exact Memory.wf_write v (by simp only [Config.memSize]; omega)
  · exact memWrite_eq_error.mpr ⟨h, rfl⟩
  · exact memRead_eq_error.mpr ⟨h, rfl⟩

/-! ## The canonical form -/

/-- The canonical form of a memory with a first cell. -/
theorem risesFrom_cons {lo k : Nat} {v : Byte} {rest : Memory} : Memory.risesFrom lo ((k, v) :: rest) = true ↔
    lo ≤ k ∧ k < Config.memSize ∧ v ≠ unlistedByte ∧ Memory.risesFrom (k + 1) rest = true := by
  simp only [Memory.risesFrom, Bool.and_eq_true, decide_eq_true_eq, and_assoc]

theorem read_cons_self (k : Nat) (v : Byte) (rest : Memory) : Memory.read ((k, v) :: rest) k = v :=
  if_pos rfl

theorem read_cons_of_ne {k a : Nat} (h : a ≠ k) (v : Byte) (rest : Memory) :
    Memory.read ((k, v) :: rest) a = rest.read a :=
  if_neg h.symm

/-- Below its first address a canonical memory lists nothing. -/
theorem read_of_lt_risesFrom {lo a : Nat} {m : Memory} (hm : m.risesFrom lo = true) (ha : a < lo) :
    m.read a = unlistedByte := by
  induction m generalizing lo with
  | nil => rfl
  | cons c rest ih =>
    obtain ⟨k, v⟩ := c
    obtain ⟨hlo, -, -, hrest⟩ := risesFrom_cons.mp hm
    rw [read_cons_of_ne (by omega), ih hrest (by omega)]

/-- Two memories read alike at all 65,536 addresses. -/
def ReadAlike (m m' : Memory) : Prop := ∀ a : Nat, a < Config.memSize → m.read a = m'.read a

theorem ReadAlike.symm {m m' : Memory} (h : ReadAlike m m') : ReadAlike m' m := fun a ha => (h a ha).symm

/-- The first listed cell shows: a memory that lists nothing up to its address reads otherwise there. -/
theorem not_readAlike_of_first_cell {lo k : Nat} {v : Byte} {rest m : Memory}
    (h : Memory.risesFrom lo ((k, v) :: rest) = true) (hm : m.risesFrom (k + 1) = true) :
    ¬ ReadAlike ((k, v) :: rest) m := by
  obtain ⟨-, hk, hv, -⟩ := risesFrom_cons.mp h
  intro hread
  apply hv
  calc v = Memory.read ((k, v) :: rest) k := (read_cons_self k v rest).symm
    _ = m.read k := hread k hk
    _ = unlistedByte := read_of_lt_risesFrom hm (Nat.lt_succ_self k)

/-- Memories that read alike and have their first cell at one address have the same first cell and rests that read
alike. -/
theorem readAlike_tail {k : Nat} {v w : Byte} {rest rest' : Memory} (hr : rest.risesFrom (k + 1) = true)
    (hr' : rest'.risesFrom (k + 1) = true) (h : ReadAlike ((k, v) :: rest) ((k, w) :: rest')) :
    ReadAlike rest rest' := by
  intro a ha
  by_cases hak : a = k
  · rw [read_of_lt_risesFrom hr (by omega), read_of_lt_risesFrom hr' (by omega)]
  · rw [← read_cons_of_ne hak v rest, ← read_cons_of_ne hak w rest', h a ha]

/-- Canonical memories that read alike are the same, by induction on the cells of one of them. -/
theorem eq_of_readAlike {lo : Nat} {m m' : Memory} (hm : m.risesFrom lo = true) (hm' : m'.risesFrom lo = true)
    (h : ReadAlike m m') : m = m' := by
  induction m generalizing lo m' with
  | nil =>
    cases m' with
    | nil => rfl
    | cons c rest => exact absurd h.symm (not_readAlike_of_first_cell hm' rfl)
  | cons c rest ih =>
    obtain ⟨k, v⟩ := c
    cases m' with
    | nil => exact absurd h (not_readAlike_of_first_cell hm rfl)
    | cons c' rest' =>
      obtain ⟨k', v'⟩ := c'
      obtain ⟨-, hk, hv, hrest⟩ := risesFrom_cons.mp hm
      obtain ⟨-, hk', hv', hrest'⟩ := risesFrom_cons.mp hm'
      obtain hlt | rfl | hgt := Nat.lt_trichotomy k k'
      · exact absurd h (not_readAlike_of_first_cell hm (risesFrom_cons.mpr ⟨hlt, hk', hv', hrest'⟩))
      · have hcell := h k hk
        rw [read_cons_self, read_cons_self] at hcell
        rw [hcell, ih hrest hrest' (readAlike_tail hrest hrest' h)]
      · exact absurd h.symm (not_readAlike_of_first_cell hm' (risesFrom_cons.mpr ⟨hgt, hk, hv, hrest⟩))

/-- Settles O50, from `eq_of_readAlike`. -/
theorem canonicalMemoriesAreExtensional : Obligations.CanonicalMemoriesAreExtensional :=
  fun _ _ hm hm' h => eq_of_readAlike hm hm' h

/-! ## What an instruction leaves of memory -/

/-- Memory changes only by the stores, the memory steps and JSR (R32, R115). -/
theorem Change.mem_frame {o : Op} {s t : State} (h : Change o s t) (ho : writesMem o = false) : t.mem = s.mem := by
  cases h with
  | writesRegister => rw [writeReg_mem]
  | writesCell _ _ _ hw => rw [hw] at ho; cases ho
  | calls => cases ho
  | _ => rfl

/-- Settles O44, from the frame of memory. -/
theorem memoryFrameOfNonStores : Obligations.MemoryFrameOfNonStores :=
  fun _ _ _ h ho a => by rw [(exec_change h).mem_frame ho]

/-- An instruction that writes memory leaves every cell but those `storesTo` names (R34, R115). -/
theorem effect_read_of_not_storesTo {i : Instr} {s t : State} (h : Effect i s t) (hw : writesMem i.op = true) {a : Nat}
    (ha : ¬ storesTo i s (a : Int)) : t.mem.read a = s.mem.read a := by
  cases i with
  | staZp | stxZp | incZp | decZp | staAbs =>
    obtain rfl := h
    exact Memory.read_write_of_ne (fun e => ha (congrArg Nat.cast e)) s.mem _
  | staAbsY | staIndY =>
    obtain ⟨ea, hea, ⟨h0, -⟩, rfl⟩ := h
    have hcell : a ≠ ea.toNat := by
      rintro rfl
      exact ha (by rw [Int.toNat_of_nonneg h0]; exact hea)
    exact Memory.read_write_of_ne hcell s.mem _
  | jsr =>
    obtain ⟨hsp, -, h⟩ := h
    obtain ⟨hlo, hhi⟩ := not_or.mp ha
    have hsucc : (s.sp + 1).toNat = s.sp.toNat + 1 := by bv_omega
    rw [h]
    exact (Memory.read_write_of_ne (by omega) _ _).trans (Memory.read_write_of_ne (by omega) _ _)
  | _ => cases hw

/-- Settles O45: the effect of a storing instruction writes only where `storesTo` says. -/
theorem memoryFrameOfStores : Obligations.MemoryFrameOfStores :=
  fun _ _ _ h hw _ ha => effect_read_of_not_storesTo (exec_effect h).2 hw ha

/-! ## A stored byte is fetched -/

/-- Below 0xFFFF the opcode fetch answers the byte at `pc` (R16). -/
theorem fetch8_of_pc_ne_top {s : State} (h : s.pc ≠ 0xFFFF#16) :
    fetch8 s = .ok (s.mem.read s.pc.toNat, { s with pc := s.pc + 1 }) := by
  rw [fetch8_eq, if_pos (by bv_omega)]

/-- A step of a run that goes on is the meaning of the instruction its bytes decode to (R143). -/
theorem step_eq_exec {s : State} {i : Instr} (hrun : s.halted = false) (hpc : s.pc ≠ 0xFFFF#16)
    (hi : decode (fetchWindow s) = .ok i) : step s = exec i s := by
  rw [decode] at hi
  rw [step, stepWith_of_running _ hrun, advanceWith, fetch8_of_pc_ne_top hpc, hi]

/-- A step on a byte that no operation has faults with that byte (R56, R121). -/
theorem step_eq_unknownOpcode {s : State} (hrun : s.halted = false) (hpc : s.pc ≠ 0xFFFF#16)
    (hb : ∀ o : Op, defaultOpcodeMap o ≠ s.mem.read s.pc.toNat) :
    step s = .fault (.unknownOpcode (s.mem.read s.pc.toNat)) := by
  rw [step, stepWith_of_running _ hrun, advanceWith, fetch8_of_pc_ne_top hpc, fetchWindow_eq]
  simp only [decodeWith, lookup_eq_none.mpr hb]

/-- Under the default map the lookup finds the operation whose byte it is (R53, R55). -/
theorem lookup_defaultOpcodeMap (o : Op) : lookup defaultOpcodeMap (defaultOpcodeMap o) = some o := by
  cases o <;> rfl

/-- An instruction without operand bytes is read from its opcode, whatever follows (R51). -/
theorem withOperand_of_no_operandBytes {i : Instr} (h : operandBytes i = []) (rest : List Byte) :
    withOperand i.op rest = .ok i := by
  cases i with
  | brk | clc | rts | tay | tya | iny | dey | inx | dex | nop => rfl
  | _ => cases h

/-- A byte that is a whole encoding decodes to its instruction, whatever follows (R50, R53). -/
theorem decode_of_encode_eq_singleton {i : Instr} {b : Byte} (h : encode i = [b]) (rest : List Byte) :
    decode (b :: rest) = .ok i := by
  obtain ⟨hb, hops⟩ := List.cons.inj h
  rw [decode, decodeWith, ← hb, lookup_defaultOpcodeMap]
  exact withOperand_of_no_operandBytes hops rest

/-- STA abs leaves A at its address (R90). -/
theorem execStaAbs_read {addr : Addr} {s t : State} (h : exec (.staAbs addr) s = .next t) :
    t.mem.read addr.toNat = s.a := by
  obtain ⟨-, rfl⟩ := exec_effect h
  exact Memory.read_write_self s.mem addr.toNat s.a

/-- Settles O51: the fetch reads the stored byte, and the step follows from what that byte decodes to. -/
theorem fetchSeesTheStore : Obligations.FetchSeesTheStore := by
  rintro addr s t h rfl hpc hrun
  have hread := execStaAbs_read h
  rw [← hread]
  refine ⟨⟨_, fetch8_of_pc_ne_top hpc⟩, step_eq_unknownOpcode hrun hpc, fun i hi => step_eq_exec hrun hpc ?_⟩
  rw [fetchWindow_eq]
  exact decode_of_encode_eq_singleton hi _

end Sys2Proof.Proofs

/-! PROOFS. Encoding and decoding (spec/30_encoding.md R50 to R58, R68): the operand readers against the operand
bytes in both directions, what a decoding that succeeds says, and the obligations as short uses of these. -/

namespace Sys2Proof.Proofs

open Sys2Proof.Machine Sys2Proof.Safety

/-! ## Operands -/

/-- A one-byte operand is read exactly when there is a byte (R51). -/
theorem withByte_eq_ok {o : Op} {k : Byte → Instr} {bs : List Byte} {i : Instr} :
    withByte o k bs = .ok i ↔ ∃ b rest, bs = b :: rest ∧ i = k b := by
  cases bs <;> simp [withByte, eq_comm]

/-- The word whose bytes two bytes are, low byte first (R36). -/
theorem wordBytes_joinBytes (hi lo : Byte) : wordBytes (joinBytes hi lo) = [lo, hi] := by
  simp [wordBytes]

/-- A word is read back from its bytes, whatever follows (R36, R52). -/
theorem withWord_wordBytes {o : Op} {k : Addr → Instr} (v : Addr) (rest : List Byte) :
    withWord o k (wordBytes v ++ rest) = .ok (k v) := by
  simp [wordBytes, withWord]

/-- A two-byte operand is read exactly when the bytes begin with those of a word (R51, R52). -/
theorem withWord_eq_ok {o : Op} {k : Addr → Instr} {bs : List Byte} {i : Instr} :
    withWord o k bs = .ok i ↔ ∃ v rest, bs = wordBytes v ++ rest ∧ i = k v := by
  constructor
  · intro h
    match bs, h with
    | lo :: hi :: rest, h =>
      cases h
      exact ⟨joinBytes hi lo, rest, by rw [wordBytes_joinBytes]; rfl, rfl⟩
  · rintro ⟨v, rest, rfl, rfl⟩
    exact withWord_wordBytes v rest

/-- The offsets a byte can stand for are those in range (R52). -/
theorem relInRange_eq_true {off : Int} : relInRange off = true ↔ -128 ≤ off ∧ off ≤ 127 := by
  simp [relInRange]

/-- An offset in range is read back from its byte (R52). -/
theorem sext8_relByte_of_relInRange {off : Int} (h : relInRange off = true) : sext8 (relByte off) = off :=
  have ⟨hlo, hhi⟩ := relInRange_eq_true.mp h
  sext8_relByte hlo hhi

/-- A well-formed instruction is read back from its operand bytes, whatever follows (R51, R52). -/
theorem withOperand_operandBytes {i : Instr} (h : i.wellFormed = true) (rest : List Byte) :
    withOperand i.op (operandBytes i ++ rest) = .ok i := by
  cases i with
  | jsr | jmp | staAbs | staAbsY => simp only [Instr.op, withOperand, operandBytes, withWord_wordBytes]
  | beq off => exact congrArg (fun x => Except.ok (Instr.beq x)) (sext8_relByte_of_relInRange h)
  | bne off => exact congrArg (fun x => Except.ok (Instr.bne x)) (sext8_relByte_of_relInRange h)
  | _ => rfl

/-- An operand that is read is one a well-formed instruction has, and the bytes begin with its operand bytes. -/
theorem withOperand_eq_ok {o : Op} {bs : List Byte} {i : Instr} (h : withOperand o bs = .ok i) :
    i.wellFormed = true ∧ ∃ rest, bs = operandBytes i ++ rest := by
  cases o with
  | brk | clc | rts | tay | tya | iny | dey | inx | dex | nop =>
    cases h
    exact ⟨rfl, bs, rfl⟩
  | jsr | jmp | staAbs | staAbsY =>
    obtain ⟨v, rest, rfl, rfl⟩ := withWord_eq_ok.mp h
    exact ⟨rfl, rest, rfl⟩
  | beq | bne =>
    obtain ⟨b, rest, rfl, rfl⟩ := withByte_eq_ok.mp h
    exact ⟨relInRange_eq_true.mpr (sext8_range b), rest, by simp [operandBytes]⟩
  | _ =>
    obtain ⟨b, rest, rfl, rfl⟩ := withByte_eq_ok.mp h
    exact ⟨rfl, rest, rfl⟩

/-- Two bytes are operand bytes enough for every operation, whatever their values (R56, R58). -/
theorem withOperand_of_two_bytes (o : Op) (b1 b2 : Byte) : ∃ i, withOperand o [b1, b2] = .ok i := by
  cases o <;> exact ⟨_, rfl⟩

/-! ## Whole instructions -/

/-- What a decoding that succeeds has done: looked up the first byte, then read the operand (R50, R53). -/
theorem decodeWith_eq_ok {m : OpcodeMap} {bs : List Byte} {i : Instr} : decodeWith m bs = .ok i ↔
    ∃ b rest, bs = b :: rest ∧ lookup m b = some i.op ∧ withOperand i.op rest = .ok i := by
  cases bs with
  | nil => simp [decodeWith]
  | cons b rest =>
    cases hl : lookup m b with
    | none => simp [decodeWith, hl]
    | some o =>
      simp only [decodeWith, hl]
      constructor
      · intro h
        obtain rfl := withOperand_op h
        exact ⟨b, rest, rfl, hl, h⟩
      · rintro ⟨_, _, ⟨⟩, hop, h⟩
        obtain rfl := Option.some.inj (hl.symm.trans hop)
        exact h

/-- Under every map the encoding of an instruction is as long as its format says (R50, R51). -/
theorem encodeWith_length (m : OpcodeMap) (i : Instr) : (encodeWith m i).length = i.length := by
  cases i <;> rfl

/-- Settles O2: the lookup finds the operation under a one-to-one map, and the operand is read back. -/
theorem decodeInvertsEncode : Obligations.DecodeInvertsEncode := fun _ hm i rest hwf =>
  decodeWith_eq_ok.mpr ⟨_, operandBytes i ++ rest, rfl, lookup_self hm i.op, withOperand_operandBytes hwf rest⟩

/-- Settles O3, by taking apart the decoding that succeeded. -/
theorem decodedBytesAreTheEncoding : Obligations.DecodedBytesAreTheEncoding := by
  intro m bs i h
  obtain ⟨b, ops, rfl, hop, h⟩ := decodeWith_eq_ok.mp h
  obtain ⟨hwf, rest, rfl⟩ := withOperand_eq_ok h
  obtain rfl := lookup_eq_some hop
  exact ⟨hwf, encodeWith_length m i, rest, rfl⟩

/-! ## The bytes no operation has -/

/-- The byte values a lookup finds, as numbers, are those of the operations. -/
theorem lookup_isSome {m : OpcodeMap} {k : Nat} (hk : k < 256) :
    (lookup m (BitVec.ofNat 8 k)).isSome = true ↔ ∃ o, (m o).toNat = k := by
  rw [Option.isSome_iff_ne_none, Ne, lookup_eq_none, not_forall_not]
  exact exists_congr fun o => by bv_omega

/-- The list of operations is complete (R55). -/
theorem op_mem_all (o : Op) : o ∈ Op.all := by
  cases o <;> decide

/-- A one-to-one map gives the 31 operations 31 byte values, so a lookup finds 31 of the 256. -/
theorem legalBytes_length {m : OpcodeMap} (hm : ∀ p q : Op, m p = m q → p = q) :
    ((List.range 256).filter fun k => (lookup m (BitVec.ofNat 8 k)).isSome).length = 31 := by
  have hinj : Function.Injective fun o => (m o).toNat := fun p q h => hm p q (BitVec.eq_of_toNat_eq h)
  have hperm : ((List.range 256).filter fun k => (lookup m (BitVec.ofNat 8 k)).isSome).Perm
      (Op.all.map fun o => (m o).toNat) := by
    refine (List.perm_ext_iff_of_nodup (List.nodup_range.filter _) (List.Nodup.map hinj (by decide))).mpr fun k => ?_
    simp only [List.mem_filter, List.mem_range, List.mem_map, op_mem_all, true_and]
    constructor
    · rintro ⟨hk, h⟩
      exact (lookup_isSome hk).mp h
    · rintro ⟨o, rfl⟩
      exact ⟨(m o).isLt, (lookup_isSome (m o).isLt).mpr ⟨o, rfl⟩⟩
  exact hperm.length_eq

/-- Under a one-to-one map the other 225 byte values are illegal (R56). -/
theorem illegalBytes_length {m : OpcodeMap} (hm : ∀ p q : Op, m p = m q → p = q) :
    ((List.range 256).filter fun k => (lookup m (BitVec.ofNat 8 k)).isNone).length = 225 := by
  have hsplit := List.length_eq_length_filter_add (l := List.range 256) fun k => (lookup m (BitVec.ofNat 8 k)).isSome
  simp only [Option.not_isSome, legalBytes_length hm, List.length_range] at hsplit
  omega

/-! ## The default map -/

/-- Settles O1: each decoding evaluates to its instruction. -/
theorem sampleWordsDecode : Obligations.SampleWordsDecode :=
  ⟨rfl, rfl, rfl, rfl, rfl, rfl, rfl, rfl, rfl, rfl⟩

/-- The default map is one-to-one, since a lookup recovers each operation (R54). -/
theorem defaultOpcodeMap_injective (p q : Op) (h : defaultOpcodeMap p = defaultOpcodeMap q) : p = q := by
  have hl := lookup_defaultOpcodeMap p
  rw [h, lookup_defaultOpcodeMap q] at hl
  exact (Option.some.inj hl).symm

/-- No operation has the byte 0x02 (R54, R56). -/
theorem lookup_defaultOpcodeMap_two : lookup defaultOpcodeMap 0x02 = none := rfl

/-- Settles O4, its parts on all operations by the lookup. -/
theorem defaultOpcodeMapIsLegal : Obligations.DefaultOpcodeMapIsLegal where
  oneToOne := defaultOpcodeMap_injective
  ldaImm := rfl
  staZp := rfl
  notTwo := lookup_eq_none.mp lookup_defaultOpcodeMap_two

/-- A well-formed instruction is read back from its bytes under the default map (R53, R55). -/
theorem decode_encode {i : Instr} (h : i.wellFormed = true) : decode (encode i) = .ok i := by
  have := decodeInvertsEncode _ defaultOpcodeMap_injective i [] h
  rwa [List.append_nil] at this

/-- Settles O5: the count and 0x02 by the map, the fault by the step on an unknown opcode, and every operand by the
operand reader. -/
theorem illegalOpcodesFault : Obligations.IllegalOpcodesFault := by
  refine ⟨illegalBytes_length defaultOpcodeMap_injective, lookup_defaultOpcodeMap_two, ?_, ?_⟩
  · rintro s b hrun hfit rfl hb
    exact step_eq_unknownOpcode hrun (by bv_omega) hb
  · intro o b1 b2
    obtain ⟨i, hi⟩ := withOperand_of_two_bytes o b1 b2
    obtain rfl := withOperand_op hi
    exact ⟨i, rfl, decodeWith_eq_ok.mpr ⟨_, _, rfl, lookup_defaultOpcodeMap i.op, hi⟩⟩

/-! ## The branch fixup -/

/-- The transfer by the assembler's offset, from the address after the branch, goes to the target (R68, R113). -/
theorem branchTo_branchOffset {s : State} (target : Addr) (hf : Fits s 2) :
    branchTo (branchOffset s.pc target) { s with pc := s.pc + BitVec.ofNat 16 2 } = .ok { s with pc := target } := by
  have hpc : (s.pc + BitVec.ofNat 16 2).toNat = s.pc.toNat + 2 := toNat_add_ofNat hf
  have hsum : ((s.pc + BitVec.ofNat 16 2).toNat : Int) + branchOffset s.pc target = target.toNat := by
    rw [hpc, branchOffset]
    omega
  have hlt := target.isLt
  refine branchTo_eq_ok.mpr ⟨by rw [hsum]; omega, ?_⟩
  rw [hsum, BitVec.ofInt_natCast, BitVec.ofNat_toNat, BitVec.setWidth_eq]

/-- A taken branch whose offset the assembler computed changes `pc` to the target and nothing else (R113). -/
theorem branch_lands_on_target {s : State} {cond : State → Bool} (target : Addr) (hf : Fits s 2)
    (htaken : cond { s with pc := s.pc + BitVec.ofNat 16 2 } = true) :
    (deliver do let s1 ← consume 2 s; branchIf (cond s1) (branchOffset s.pc target) s1) =
      .next { s with pc := target } := by
  rw [consume_eq, if_pos hf, ok_bind, branchIf, if_pos htaken, branchTo_branchOffset target hf, deliver_ok]

/-- Settles O6: the offset is well formed, so it is read back, and the taken branch lands on the target. -/
theorem branchFixupRoundTrip : Obligations.BranchFixupRoundTrip := by
  intro s target hf hlo hhi
  have hrel := relInRange_eq_true.mpr ⟨hlo, hhi⟩
  exact ⟨⟨decode_encode hrel, fun hz => branch_lands_on_target (cond := State.z) target hf hz⟩,
    decode_encode hrel, fun hz => branch_lands_on_target (cond := fun u => !u.z) target hf (by simp [hz])⟩

end Sys2Proof.Proofs

/-! PROOFS. The indirect mode (spec/40_addressing.md R75, R76, R78): its effective address, what STA (zp),Y and
CMP (zp),Y do with it, and the obligation about operand 0xFF under the two settings that read a high byte. -/

namespace Sys2Proof.Proofs

open Sys2Proof.Machine Sys2Proof.Safety

section Indirect

variable {zp : Byte} {s : State} {f : Fault}

/-! ## The effective address -/

/-- Operand 0xFF under the setting linear takes the high byte from 0x0100 (R76). -/
theorem pointerHighAt_of_linear (h : s.indyFF = .linear) : pointerHighAt 0xFF s = .ok 0x0100 := by
  simp [pointerHighAt, h]

/-- Operand 0xFF under the setting wrap takes the high byte from 0x0000 (R76). -/
theorem pointerHighAt_of_wrap (h : s.indyFF = .wrap) : pointerHighAt 0xFF s = .ok 0x0000 := by
  simp [pointerHighAt, h]

/-- The effective address is the indexed pointer, wherever in memory the pointer's high byte lies (R75). -/
theorem eaIndY_of_pointerHighAt {hiAt : Nat} (h : pointerHighAt zp s = .ok hiAt) (hmem : hiAt ≤ 0xFFFF) :
    eaIndY zp s = indexByY (joinBytes (s.mem.read hiAt) (s.mem.read zp.toNat)) s := by
  rw [eaIndY, h, ok_bind, memRead_eaZp, ok_bind, memRead_eq (by omega) (by omega), ok_bind, Int.toNat_natCast]

/-- An indexed pointer whose sum lies in memory is that sum (R78). -/
theorem indexByY_joinBytes {hi lo : Byte} (h : hi.toNat * 256 + lo.toNat + s.y.toNat ≤ 0xFFFF) :
    indexByY (joinBytes hi lo) s = .ok ((hi.toNat * 256 + lo.toNat + s.y.toNat : Nat) : Int) :=
  indexByY_eq_ok.mpr ⟨by rwa [joinBytes_toNat], by rw [joinBytes_toNat, Int.natCast_add]⟩

/-- An indexed pointer whose sum exceeds 0xFFFF faults (R78, D3). -/
theorem indexByY_joinBytes_of_gt {hi lo : Byte} (h : 0xFFFF < hi.toNat * 256 + lo.toNat + s.y.toNat) :
    indexByY (joinBytes hi lo) s = .error (.addressOutOfRange .dataAddress) :=
  indexByY_eq_error.mpr ⟨by rwa [joinBytes_toNat], rfl⟩

/-! ## The two instructions of the mode -/

/-- A sequence that starts with the fetch of bytes that fit goes on from the state with `pc` past them (R16, R17). -/
theorem consume_bind_of_fits {n : Nat} (hf : Fits s n) (k : State → Res State) :
    (consume n s >>= k) = k { s with pc := s.pc + BitVec.ofNat 16 n } := by
  rw [consume_eq, if_pos hf, ok_bind]

/-- STA (zp),Y stores A at its effective address (R92). -/
theorem exec_staIndY_of_ok {ea : Nat} (hf : Fits s 2) (h : eaIndY zp s = .ok ea) :
    exec (.staIndY zp) s = .next { s with mem := s.mem.write ea s.a, pc := s.pc + 2 } := by
  obtain ⟨hlo, hhi⟩ := eaIndY_range h
  rw [exec, execStaIndY, consume_bind_of_fits hf, eaIndY_pc, h, ok_bind, memWrite_eq hlo hhi]
  rfl

/-- STA (zp),Y raises the fault of its effective address (R92). -/
theorem exec_staIndY_of_error (hf : Fits s 2) (h : eaIndY zp s = .error f) :
    exec (.staIndY zp) s = .fault f := by
  rw [exec, execStaIndY, consume_bind_of_fits hf, eaIndY_pc, h, error_bind, deliver_error]

/-- CMP (zp),Y sets Z by the byte at its effective address (R109). -/
theorem exec_cmpIndY_of_ok {ea : Nat} (hf : Fits s 2) (h : eaIndY zp s = .ok ea) :
    exec (.cmpIndY zp) s = .next { s with z := decide (s.a = s.mem.read ea), pc := s.pc + 2 } := by
  obtain ⟨hlo, hhi⟩ := eaIndY_range h
  rw [exec, execCmpIndY, consume_bind_of_fits hf, eaIndY_pc, h, ok_bind, memRead_eq hlo hhi]
  rfl

/-- CMP (zp),Y raises the fault of its effective address (R109). -/
theorem exec_cmpIndY_of_error (hf : Fits s 2) (h : eaIndY zp s = .error f) :
    exec (.cmpIndY zp) s = .fault f := by
  rw [exec, execCmpIndY, consume_bind_of_fits hf, eaIndY_pc, h, error_bind, deliver_error]

end Indirect

/-- Settles O27: each setting says where the high byte lies, and both instructions follow their effective address. -/
theorem straddlingPointerByParameter : Obligations.StraddlingPointerByParameter := by
  intro s hiAt hf hset ea
  have hea : eaIndY 0xFF s = indexByY (joinBytes (s.mem.read hiAt) (s.mem.read 0xFF)) s := by
    obtain ⟨hp, rfl⟩ | ⟨hp, rfl⟩ := hset
    · exact eaIndY_of_pointerHighAt (pointerHighAt_of_linear hp) (by decide)
    · exact eaIndY_of_pointerHighAt (pointerHighAt_of_wrap hp) (by decide)
  constructor
  · intro hle
    have hok : eaIndY 0xFF s = .ok (ea : Int) := hea.trans (indexByY_joinBytes hle)
    exact ⟨exec_staIndY_of_ok hf hok, exec_cmpIndY_of_ok hf hok⟩
  · intro hgt
    have herr := hea.trans (indexByY_joinBytes_of_gt hgt)
    exact ⟨exec_staIndY_of_error hf herr, exec_cmpIndY_of_error hf herr⟩

end Sys2Proof.Proofs

/-! PROOFS. BRK, CLC and the faults (spec/41_halt_clc.md, 60_exceptions.md R119 to R127): the effects of BRK and CLC,
what a step that answers has run, the common fetch fault, and the inversion lemma of `exec` for faults. -/

namespace Sys2Proof.Proofs

open Sys2Proof.Machine Sys2Proof.Safety

/-! ## BRK and CLC -/

/-- Settles O14: BRK fetches its byte and records the Halt. -/
theorem brkHalts : Obligations.BrkHalts := by
  refine ⟨rfl, fun s hf => ?_⟩
  rw [exec, execBrk, consume_bind_of_fits hf]
  rfl

/-- Settles O15: CLC fetches its byte and clears C. -/
theorem clcClearsCarry : Obligations.ClcClearsCarry := by
  refine ⟨rfl, fun s hf => ?_⟩
  rw [exec, execClc, consume_bind_of_fits hf]
  rfl

/-- Settles O12: the zero byte is the whole encoding of BRK, so the step is BRK's. -/
theorem zeroByteHalts : Obligations.ZeroByteHalts := by
  intro s hrun hf hbyte
  obtain ⟨hencode, hbrk⟩ := brkHalts
  have hdecode : decode (fetchWindow s) = .ok .brk := by
    rw [fetchWindow_eq, hbyte]
    exact decode_of_encode_eq_singleton hencode _
  have hpc : s.pc ≠ 0xFFFF#16 := fun e => by simp [Fits, e] at hf
  rw [step_eq_exec hrun hpc hdecode, hbrk s hf]

/-! ## What a step has run -/

/-- A step that answers a next state has run the instruction its bytes decode to, in a run that goes on (R143). -/
theorem step_eq_next {s t : State} (h : step s = .next t) :
    s.halted = false ∧ ∃ i, decode (fetchWindow s) = .ok i ∧ exec i s = .next t := by
  rw [step, stepWith] at h
  split at h
  · cases h
  · rename_i hrun
    refine ⟨Bool.eq_false_of_not_eq_true hrun, ?_⟩
    unfold advanceWith at h
    split at h
    · cases h
    · split at h
      · exact ⟨_, ‹_›, h⟩
      all_goals cases h

/-- What the bytes at `pc` decode to has the operation whose opcode is there (R53). -/
theorem lookup_of_decode_fetchWindow {s : State} {i : Instr} (h : decode (fetchWindow s) = .ok i) :
    lookup defaultOpcodeMap (s.mem.read s.pc.toNat) = some i.op := by
  rw [decode, fetchWindow_eq] at h
  obtain ⟨b, rest, hb, hop, -⟩ := decodeWith_eq_ok.mp h
  obtain ⟨rfl, -⟩ := List.cons.inj hb
  exact hop

theorem op_eq_brk {i : Instr} : i.op = .brk ↔ i = .brk := by
  cases i <;> simp [Instr.op]

/-- Settles O9: the step ran the instruction of the opcode at `pc`, and BRK's effect alone records the Halt. -/
theorem haltExactlyAtBrk : Obligations.HaltExactlyAtBrk := by
  intro s t h
  obtain ⟨hrun, i, hdecode, hexec⟩ := step_eq_next h
  obtain ⟨-, -, hhalted⟩ := effect_parameters (exec_effect hexec).2
  rw [hhalted, hrun, lookup_of_decode_fetchWindow hdecode, Bool.or_false, decide_eq_true_iff, Option.some.injEq,
    op_eq_brk]

/-! ## The common fetch fault -/

/-- A sequence that starts with the fetch of bytes that reach 0xFFFF raises the common fetch fault (R119). -/
theorem deliver_consume_bind_of_beyond {n : Nat} {s : State} (h : 0xFFFF < s.pc.toNat + n) (k : State → Res State) :
    deliver (consume n s >>= k) = .fault (.addressOutOfRange .pcIncrement) := by
  rw [consume_eq_error.mpr ⟨h, rfl⟩, error_bind, deliver_error]

/-- Every instruction but JSR fetches all its bytes before anything else (R119). -/
theorem exec_of_beyond {i : Instr} {s : State} (hi : i.op ≠ .jsr) (h : 0xFFFF < s.pc.toNat + i.length) :
    exec i s = .fault (.addressOutOfRange .pcIncrement) := by
  cases i with
  | jsr => exact absurd rfl hi
  | nop => exact deliver_eq_fault.mpr (consume_eq_error.mpr ⟨h, rfl⟩)
  | _ => exact deliver_consume_bind_of_beyond h _

/-- JSR with its opcode at 0xFFFF faults at the opcode fetch (R119, R82). -/
theorem exec_jsr_of_pc_top {target : Addr} {s : State} (h : s.pc = 0xFFFF#16) :
    exec (.jsr target) s = .fault (.addressOutOfRange .pcIncrement) :=
  deliver_consume_bind_of_beyond (by simp [h]) _

/-- JSR whose return address exceeds 0xFFFF faults before it pushes or reads its operand (R82). -/
theorem exec_jsr_of_returnAddress {target : Addr} {s : State} (hpc : s.pc ≠ 0xFFFF#16) (h : 0xFFFF < s.pc.toNat + 3) :
    exec (.jsr target) s = .fault (.addressOutOfRange .returnAddress) := by
  have hfit : s.pc.toNat + 1 ≤ 0xFFFF := by bv_omega
  have hret : (s.pc + BitVec.ofNat 16 1).toNat + 2 > 0xFFFF := by
    rw [toNat_add_ofNat hfit]
    omega
  rw [exec, execJsr, consume_bind_of_fits hfit]
  simp only [if_pos hret, raise_eq_error, deliver_error]

/-- A step with `pc` at 0xFFFF faults at the opcode fetch, whatever the byte (R127). -/
theorem step_of_pc_top {s : State} (hrun : s.halted = false) (h : s.pc = 0xFFFF#16) :
    step s = .fault (.addressOutOfRange .pcIncrement) := by
  rw [step, stepWith_of_running _ hrun, advanceWith, fetch8_eq, if_neg (by simp [h])]

/-- A one-byte operand is missing only for want of a byte (R51). -/
theorem withByte_eq_error {o : Op} {k : Byte → Instr} {rest : List Byte} {e : DecodeError}
    (h : withByte o k rest = .error e) : e = .truncated o := by
  match rest, h with
  | [], h => exact (Except.error.inj h).symm

/-- A two-byte operand is missing only for want of one or both bytes (R51). -/
theorem withWord_eq_error {o : Op} {k : Addr → Instr} {rest : List Byte} {e : DecodeError}
    (h : withWord o k rest = .error e) : e = .truncated o := by
  match rest, h with
  | [], h => exact (Except.error.inj h).symm
  | [_], h => exact (Except.error.inj h).symm

/-- The operand reader fails only for want of operand bytes (R58). -/
theorem withOperand_eq_error {o : Op} {rest : List Byte} {e : DecodeError} (h : withOperand o rest = .error e) :
    e = .truncated o := by
  cases o with
  | brk | clc | rts | tay | tya | iny | dey | inx | dex | nop => cases h
  | jsr | jmp | staAbs | staAbsY => exact withWord_eq_error h
  | _ => exact withByte_eq_error h

/-- A step whose operand bytes do not exist faults as `truncationFault` says (R119, R127). -/
theorem step_of_withOperand_error {s : State} {o : Op} {e : DecodeError} (hrun : s.halted = false)
    (hpc : s.pc ≠ 0xFFFF#16) (hop : lookup defaultOpcodeMap (s.mem.read s.pc.toNat) = some o)
    (h : withOperand o (s.mem.bytesFrom (s.pc.toNat + 1) 2) = .error e) : step s = .fault (truncationFault o) := by
  obtain rfl := withOperand_eq_error h
  rw [step, stepWith_of_running _ hrun, advanceWith, fetch8_of_pc_ne_top hpc, fetchWindow_eq]
  simp only [decodeWith, hop, h]

theorem truncationFault_eq (o : Op) :
    truncationFault o = .addressOutOfRange (if o = .jsr then .returnAddress else .pcIncrement) := by
  cases o <;> rfl

/-- Apart from an opcode at 0xFFFF, an instruction whose bytes reach 0xFFFF faults as `truncationFault` says, its
operand bytes existing (R119, R82). -/
theorem exec_eq_truncationFault {i : Instr} {s : State} (hpc : s.pc ≠ 0xFFFF#16) (h : 0xFFFF < s.pc.toNat + i.length) :
    exec i s = .fault (truncationFault i.op) := by
  by_cases hi : i.op = .jsr
  · cases i with
    | jsr => exact exec_jsr_of_returnAddress hpc h
    | _ => cases hi
  · rw [exec_of_beyond hi h, truncationFault_eq, if_neg hi]

/-- Settles O11: the fetch of the meanings, that of the opcode, and a step by whether its operand bytes exist. -/
theorem commonFetchFault : Obligations.CommonFetchFault := by
  refine ⟨fun _ _ => exec_of_beyond, fun _ _ => exec_jsr_of_pc_top, fun _ => step_of_pc_top, ?_⟩
  intro s o hrun hop hpc hlen
  rw [← truncationFault_eq]
  cases hw : withOperand o (s.mem.bytesFrom (s.pc.toNat + 1) 2) with
  | error e => exact step_of_withOperand_error hrun hpc hop hw
  | ok i =>
    obtain rfl := withOperand_op hw
    have hdecode : decode (fetchWindow s) = .ok i := decodeWith_eq_ok.mpr ⟨_, _, fetchWindow_eq s, hop, hw⟩
    rw [step_eq_exec hrun hpc hdecode, exec_eq_truncationFault hpc hlen]

/-! ## The causes of the faults -/

/-- Why an instruction faults in a state whose `sp` is at or above SP_RESET: one constructor for each fault that an
instruction can raise (R119, R123 to R125). -/
inductive FaultCause (i : Instr) (s : State) : Fault → Prop
  /-- A byte of the instruction lies at 0xFFFF or beyond (R119). -/
  | fetch (h : 0xFFFF < s.pc.toNat + i.length) : FaultCause i s (.addressOutOfRange .pcIncrement)
  /-- An index by Y leads out of memory (R78). -/
  | dataAddress (h : i.op = .staAbsY ∨ i.op = .staIndY ∨ i.op = .cmpIndY) :
      FaultCause i s (.addressOutOfRange .dataAddress)
  /-- A branch is taken (R113). -/
  | branchTarget (h : (i.op = .beq ∧ s.z = true) ∨ (i.op = .bne ∧ s.z = false)) :
      FaultCause i s (.addressOutOfRange .branchTarget)
  /-- The return address of JSR exceeds 0xFFFF (R82). -/
  | returnAddress (hi : i.op = .jsr) (h : 0xFFFD ≤ s.pc.toNat) : FaultCause i s (.addressOutOfRange .returnAddress)
  /-- A push of JSR finds the stack full (R25). -/
  | stackOverflow (hi : i.op = .jsr) (h : 0xFFFE ≤ s.sp.toNat) : FaultCause i s .stackOverflow
  /-- A pop of RTS finds the stack empty (R26). -/
  | stackUnderflow (hi : i.op = .rts) (h : s.sp.toNat ≤ s.spReset.toNat + 1) : FaultCause i s .stackUnderflow
  /-- The pointer of INDY straddles the end of the zero page (R76). -/
  | pointerStraddle {zp : Byte} (hzp : zp = 0xFF#8) (hset : s.indyFF = .fault)
      (hi : i = .staIndY zp ∨ i = .cmpIndY zp) : FaultCause i s (.pointerStraddle zp)

/-- A pointer's high byte has no address only for operand 0xFF under the setting fault (R76). -/
theorem pointerHighAt_eq_error {zp : Byte} {s : State} {f : Fault} (h : pointerHighAt zp s = .error f) :
    zp = 0xFF#8 ∧ s.indyFF = .fault ∧ f = .pointerStraddle zp := by
  unfold pointerHighAt at h
  split at h
  · split at h
    · cases h
      exact ⟨‹_›, ‹_›, rfl⟩
    all_goals cases h
  · cases h

/-- The index mode INDY faults for its pointer or for an address out of memory (R75, R76, R78). -/
theorem eaIndY_eq_error {zp : Byte} {s : State} {f : Fault} (h : eaIndY zp s = .error f) :
    (zp = 0xFF#8 ∧ s.indyFF = .fault ∧ f = .pointerStraddle zp) ∨ f = .addressOutOfRange .dataAddress := by
  obtain h | ⟨hiAt, -, h⟩ := bind_eq_error.mp h
  · exact .inl (pointerHighAt_eq_error h)
  obtain h | ⟨lo, -, h⟩ := bind_eq_error.mp h
  · exact .inr (memRead_eq_error.mp h).2
  obtain h | ⟨hi, -, h⟩ := bind_eq_error.mp h
  · exact .inr (memRead_eq_error.mp h).2
  · exact .inr (indexByY_eq_error.mp h).2

/-- A branch that faults was taken (R113). -/
theorem branchIf_eq_error {taken : Bool} {off : Int} {s : State} {f : Fault} (h : branchIf taken off s = .error f) :
    taken = true ∧ f = .addressOutOfRange .branchTarget := by
  cases taken with
  | false => cases h
  | true => exact ⟨rfl, (branchTo_eq_error.mp h).2⟩

/-- With `sp` at or above SP_RESET a pop faults only when the stack is empty (R26). -/
theorem pop8_eq_error_of_le {s : State} {f : Fault} (h : pop8 s = .error f) (hsp : s.spReset.toNat ≤ s.sp.toNat) :
    s.sp = s.spReset ∧ f = .stackUnderflow := by
  obtain h | ⟨hne, h0, -⟩ := pop8_eq_error.mp h
  · exact h
  · bv_omega

/-- A sequence that starts with the fetch of an instruction's bytes has its cause when what follows the fetch has. -/
theorem faultCause_of_fetch {n : Nat} {i : Instr} {s : State} {f : Fault} {k : State → Res State} (hn : n ≤ i.length)
    (h : deliver (consume n s >>= k) = .fault f)
    (hk : s.pc.toNat + n ≤ 0xFFFF → k { s with pc := s.pc + BitVec.ofNat 16 n } = .error f → FaultCause i s f) :
    FaultCause i s f := by
  obtain h | ⟨s1, h1, h⟩ := bind_eq_error.mp (deliver_eq_fault.mp h)
  · obtain ⟨hbeyond, rfl⟩ := consume_eq_error.mp h
    exact .fetch (by omega)
  · obtain ⟨hfit, rfl⟩ := consume_eq_ok.mp h1
    exact hk hfit h

/-- An instruction of the mode INDY that raises the fault of its effective address has its cause. -/
theorem faultCause_of_eaIndY {i : Instr} {zp : Byte} {s : State} {f : Fault} (hi : i = .staIndY zp ∨ i = .cmpIndY zp)
    (h : eaIndY zp s = .error f) : FaultCause i s f := by
  obtain ⟨hzp, hset, rfl⟩ | rfl := eaIndY_eq_error h
  · exact .pointerStraddle hzp hset hi
  · exact .dataAddress (.inr (hi.imp (congrArg Instr.op) (congrArg Instr.op)))

theorem execJsr_faultCause {target : Addr} {s : State} {f : Fault} (h : execJsr target s = .fault f) :
    FaultCause (.jsr target) s f := by
  refine faultCause_of_fetch (Nat.le_add_left 1 2) h fun hfit h => ?_
  simp only [toNat_add_ofNat hfit] at h
  split at h
  · cases h
    exact .returnAddress rfl (by omega)
  · obtain h | ⟨s2, h2, h⟩ := bind_eq_error.mp h
    · obtain ⟨hsp, rfl⟩ := push8_eq_error.mp h
      exact .stackOverflow rfl (by bv_omega)
    obtain ⟨-, rfl⟩ := push8_eq_ok.mp h2
    obtain h | ⟨s3, h3, h⟩ := bind_eq_error.mp h
    · obtain ⟨hsp, rfl⟩ := push8_eq_error.mp h
      exact .stackOverflow rfl (by bv_omega)
    obtain ⟨-, rfl⟩ := push8_eq_ok.mp h3
    obtain h | ⟨s4, -, h⟩ := bind_eq_error.mp h
    · obtain ⟨hbeyond, rfl⟩ := consume_eq_error.mp h
      rw [toNat_add_ofNat hfit] at hbeyond
      omega
    · cases h

theorem execRts_faultCause {s : State} {f : Fault} (hsp : s.spReset.toNat ≤ s.sp.toNat) (h : execRts s = .fault f) :
    FaultCause .rts s f := by
  refine faultCause_of_fetch (Nat.le_refl _) h fun _ h => ?_
  obtain h | ⟨⟨hi, s2⟩, h2, h⟩ := bind_eq_error.mp h
  · obtain ⟨hempty, rfl⟩ := pop8_eq_error_of_le h hsp
    exact .stackUnderflow rfl (by bv_omega)
  obtain ⟨hne, -, -, rfl⟩ := pop8_eq_ok.mp h2
  obtain h | ⟨⟨lo, s3⟩, -, h⟩ := bind_eq_error.mp h
  · obtain ⟨hempty, rfl⟩ := pop8_eq_error_of_le h (by bv_omega)
    exact .stackUnderflow rfl (by bv_omega)
  · cases h

/-- The inversion lemma of `exec` for faults: a fault has its cause. -/
theorem exec_faultCause {i : Instr} {s : State} {f : Fault} (hsp : s.spReset.toNat ≤ s.sp.toNat)
    (h : exec i s = .fault f) : FaultCause i s f := by
  cases i with
  | jsr => exact execJsr_faultCause h
  | rts => exact execRts_faultCause hsp h
  | nop =>
    obtain ⟨hbeyond, rfl⟩ := consume_eq_error.mp (deliver_eq_fault.mp h)
    exact .fetch hbeyond
  | beq =>
    refine faultCause_of_fetch (Nat.le_refl _) h fun _ h => ?_
    obtain ⟨hz, rfl⟩ := branchIf_eq_error h
    exact .branchTarget (.inl ⟨rfl, hz⟩)
  | bne =>
    refine faultCause_of_fetch (Nat.le_refl _) h fun _ h => ?_
    obtain ⟨hz, rfl⟩ := branchIf_eq_error h
    exact .branchTarget (.inr ⟨rfl, by simpa using hz⟩)
  | staAbsY =>
    refine faultCause_of_fetch (Nat.le_refl _) h fun _ h => ?_
    obtain h | ⟨ea, -, h⟩ := bind_eq_error.mp h
    · obtain ⟨-, rfl⟩ := indexByY_eq_error.mp h
      exact .dataAddress (.inl rfl)
    · obtain ⟨-, rfl⟩ := memWrite_eq_error.mp h
      exact .dataAddress (.inl rfl)
  | staIndY =>
    refine faultCause_of_fetch (Nat.le_refl _) h fun _ h => ?_
    obtain h | ⟨ea, -, h⟩ := bind_eq_error.mp h
    · exact faultCause_of_eaIndY (.inl rfl) h
    · obtain ⟨-, rfl⟩ := memWrite_eq_error.mp h
      exact .dataAddress (.inr (.inl rfl))
  | cmpIndY =>
    refine faultCause_of_fetch (Nat.le_refl _) h fun _ h => ?_
    obtain h | ⟨ea, -, h⟩ := bind_eq_error.mp h
    · exact faultCause_of_eaIndY (.inr rfl) h
    obtain h | ⟨m, -, h⟩ := bind_eq_error.mp h
    · obtain ⟨-, rfl⟩ := memRead_eq_error.mp h
      exact .dataAddress (.inr (.inr rfl))
    · cases h
  | _ =>
    refine faultCause_of_fetch (Nat.le_refl _) h fun _ h => ?_
    simp only [memRead_eaZp, memWrite_eaZp, eaAbs, memWrite_addr, ok_bind, pure_eq_ok, reduceCtorEq] at h

/-- Settles O48, from the inversion lemma for faults. -/
theorem faultsHaveTheirCauses : Obligations.FaultsHaveTheirCauses := by
  intro i s f hsp hexec
  cases exec_faultCause hsp hexec with
  | fetch h | dataAddress h | branchTarget h => exact h
  | returnAddress hi h | stackOverflow hi h | stackUnderflow hi h => exact ⟨hi, h⟩
  | pointerStraddle hzp hset hi => exact ⟨hzp, hset, hi⟩

end Sys2Proof.Proofs

/-! PROOFS. JMP, JSR and RTS (spec/42_jumps_subroutines.md R79, R82 to R84): what JSR pushes and when it completes,
what RTS pops and when it faults, and the return of an RTS to the instruction after its JSR. -/

namespace Sys2Proof.Proofs

open Sys2Proof.Machine Sys2Proof.Safety

/-! ## A word as two bytes -/

/-- The low byte of a word is its remainder by 256 (R36). -/
theorem loByte_eq (v : Addr) : loByte v = BitVec.ofNat 8 (v.toNat % 256) := by
  rw [loByte]
  bv_omega

/-- The operand bytes of a word as numbers, low byte first (R36, R51). -/
theorem wordBytes_eq (v : Addr) : wordBytes v = [BitVec.ofNat 8 (v.toNat % 256), BitVec.ofNat 8 (v.toNat / 256)] := by
  rw [wordBytes, loByte_eq, hiByte]

/-! ## Every instruction answers -/

theorem deliver_next_or_fault (r : Res State) : (∃ t, deliver r = .next t) ∨ ∃ f, deliver r = .fault f := by
  cases r with
  | ok t => exact .inl ⟨t, rfl⟩
  | error f => exact .inr ⟨f, rfl⟩

/-- Every instruction has a meaning: it answers a next state or a fault (R120). -/
theorem exec_next_or_fault (i : Instr) (s : State) : (∃ t, exec i s = .next t) ∨ ∃ f, exec i s = .fault f := by
  cases i <;> exact deliver_next_or_fault _

/-! ## JMP -/

/-- Settles O17: JMP fetches its three bytes and sets `pc`. -/
theorem jmpSetsPc : Obligations.JmpSetsPc := by
  refine ⟨fun target => congrArg (0x4C :: ·) (wordBytes_eq target), fun target s hf => ?_⟩
  rw [exec, execJmp, consume_bind_of_fits hf]
  rfl

/-! ## JSR -/

/-- With its bytes below 0xFFFF, JSR completes or finds the stack full (R82, R25). -/
theorem exec_jsr_completes_or_overflows (target : Addr) {s : State} (hf : Fits s 3) :
    (s.sp.toNat ≤ 0xFFFD ∧ ∃ t, exec (.jsr target) s = .next t) ∨
      (0xFFFE ≤ s.sp.toNat ∧ exec (.jsr target) s = .fault .stackOverflow) := by
  obtain ⟨t, h⟩ | ⟨f, h⟩ := exec_next_or_fault (.jsr target) s
  · obtain ⟨-, hlo, hhi, -⟩ := exec_effect h
    exact .inl ⟨by bv_omega, t, h⟩
  · cases execJsr_faultCause h with
    | fetch hbeyond => exact absurd hbeyond (Nat.not_lt.mpr hf)
    | returnAddress _ hpc => omega
    | stackOverflow _ hfull => exact .inr ⟨hfull, h⟩
    | stackUnderflow hop => cases hop
    | dataAddress hop | branchTarget hop => simp [Instr.op] at hop
    | pointerStraddle _ _ hi => simp at hi

section Jsr

variable {target : Addr} {s t : State} (h : exec (.jsr target) s = .next t)
include h

/-- A JSR that completes has pushed `a0 + 3`, low byte first (R82). -/
theorem exec_jsr_pushes : s.sp.toNat ≤ 0xFFFD ∧ t = { s with
    pc := t.pc, sp := s.sp + 2,
    mem := (s.mem.write s.sp.toNat (loByte (s.pc + 3))).write (s.sp.toNat + 1) (hiByte (s.pc + 3)) } := by
  obtain ⟨-, hlo, hhi, ht⟩ := exec_effect h
  have hret : BitVec.ofNat 16 ((s.pc + 1).toNat + 2) = s.pc + 3 := by bv_omega
  have hcell : (s.sp + 1).toNat = s.sp.toNat + 1 := by bv_omega
  have hsp : s.sp + 1 + 1 = s.sp + 2 := by bv_omega
  rw [hret, hcell, hsp] at ht
  exact ⟨by bv_omega, ht⟩

/-- The low byte of the return address is where `sp` was (R82). -/
theorem exec_jsr_read_lo : t.mem.read s.sp.toNat = loByte (s.pc + 3) := by
  obtain ⟨-, ht⟩ := exec_jsr_pushes h
  rw [ht]
  exact (Memory.read_write_of_ne (by omega) _ _).trans (Memory.read_write_self _ _ _)

/-- The high byte of the return address is one above (R82). -/
theorem exec_jsr_read_hi : t.mem.read (s.sp.toNat + 1) = hiByte (s.pc + 3) := by
  obtain ⟨-, ht⟩ := exec_jsr_pushes h
  rw [ht]
  exact Memory.read_write_self _ _ _

/-- JSR leaves every other cell (R82). -/
theorem exec_jsr_read_of_ne {a : Nat} (ha : a ≠ s.sp.toNat) (ha' : a ≠ s.sp.toNat + 1) :
    t.mem.read a = s.mem.read a :=
  memoryFrameOfStores _ _ _ h rfl a (show ¬((a : Int) = _ ∨ (a : Int) = _) by omega)

/-- The byte JSR reads at an operand address that held it before the pushes is the one there after them (D14). -/
theorem operandAfterPush_eq_read {a : Nat} {b : Byte} (hb : s.mem.read a = b) :
    operandAfterPush s t a b = t.mem.read a := by
  unfold operandAfterPush
  split
  · rfl
  · rename_i hno
    obtain ⟨ha, ha'⟩ := not_or.mp hno
    rw [exec_jsr_read_of_ne h ha ha', hb]

/-- With the operand in memory, JSR goes to what memory holds at the operand's address after the pushes (R82, D14). -/
theorem exec_jsr_pc_of_operand_in_memory (hlo : s.mem.read (s.pc.toNat + 1) = loByte target)
    (hhi : s.mem.read (s.pc.toNat + 2) = hiByte target) :
    t.pc = joinBytes (t.mem.read (s.pc.toNat + 2)) (t.mem.read (s.pc.toNat + 1)) := by
  rw [execJsr_pc h, operandAfterPush_eq_read h hlo, operandAfterPush_eq_read h hhi]

end Jsr

/-- Settles O16: the completing case by what JSR pushes and where it goes, the faults by the check of the return
address and by the dichotomy of a JSR whose bytes fit. -/
theorem jsrPushesAndJumps : Obligations.JsrPushesAndJumps := by
  refine ⟨fun target => congrArg (0x20 :: ·) (wordBytes_eq target), fun target s hf hroom => ?_,
    fun target s hpc hne => exec_jsr_of_returnAddress hne (by omega), fun target s hf hfull => ?_⟩
  · obtain ⟨-, t, h⟩ | ⟨hfull, -⟩ := exec_jsr_completes_or_overflows target hf
    · have hret : (s.pc + 3).toNat = s.pc.toNat + 3 := toNat_add_ofNat hf
      obtain ⟨-, ht⟩ := exec_jsr_pushes h
      refine ⟨t, h, ?_, ?_, ?_, fun a => exec_jsr_read_of_ne h, ?_, ?_⟩
      · rw [ht]
      · rw [exec_jsr_read_lo h, loByte_eq, hret]
      · rw [exec_jsr_read_hi h, hiByte, hret]
      · intro hno
        obtain ⟨-, hpc, -⟩ := pcAfterEachInstruction _ _ _ h
        exact hpc target rfl (by omega)
      · intro hlo hhi
        rw [exec_jsr_pc_of_operand_in_memory h (hlo.trans (loByte_eq target).symm) hhi, joinBytes_toNat]
    · omega
  · obtain ⟨hroom, -⟩ | ⟨-, h⟩ := exec_jsr_completes_or_overflows target hf
    · omega
    · exact h

/-! ## RTS -/

section Rts

variable {s : State} (hf : Fits s 1)
include hf

/-- With two bytes on the stack RTS completes with `pc` those two bytes, the high one on top (R84). -/
theorem exec_rts_of_two_bytes (hsp : 2 ≤ s.sp.toNat) (hne : s.sp ≠ s.spReset) (hne' : s.sp ≠ s.spReset + 1) :
    exec .rts s = .next { s with
      pc := joinBytes (s.mem.read (s.sp.toNat - 1)) (s.mem.read (s.sp.toNat - 2)), sp := s.sp - 2 } := by
  have hcell : (s.sp - 1).toNat - 1 = s.sp.toNat - 2 := by bv_omega
  have hsub : s.sp - 1 - 1 = s.sp - 2 := by bv_omega
  rw [exec, execRts, consume_bind_of_fits hf]
  refine deliver_eq_next.mpr (bind_eq_ok.mpr ⟨_, pop8_eq_ok.mpr ⟨hne, by bv_omega, rfl, rfl⟩,
    bind_eq_ok.mpr ⟨_, pop8_eq_ok.mpr ⟨?_, ?_, rfl, rfl⟩, ?_⟩⟩)
  · show s.sp - 1 ≠ s.spReset
    bv_omega
  · show s.sp - 1 ≠ 0#16
    bv_omega
  · simp only [pure_eq_ok, hcell, hsub]

/-- With fewer than two bytes on the stack RTS finds it empty (R84, R26). -/
theorem exec_rts_of_empty (hle : s.spReset.toNat ≤ s.sp.toNat) (hempty : s.sp.toNat ≤ s.spReset.toNat + 1) :
    exec .rts s = .fault .stackUnderflow := by
  obtain ⟨t, h⟩ | ⟨f, h⟩ := exec_next_or_fault .rts s
  · obtain ⟨-, hne, -, hne', -⟩ := exec_effect h
    bv_omega
  · cases execRts_faultCause hle h with
    | fetch hbeyond => exact absurd hbeyond (Nat.not_lt.mpr hf)
    | stackUnderflow => exact h
    | dataAddress hop | branchTarget hop => simp [Instr.op] at hop
    | returnAddress hop | stackOverflow hop => cases hop
    | pointerStraddle _ _ hi => simp at hi

end Rts

/-- Settles O18, from the case of two bytes and that of an empty stack. -/
theorem rtsPopsPc : Obligations.RtsPopsPc := by
  refine ⟨rfl, fun s hf => exec_rts_of_two_bytes hf, fun s hf hsp => ?_, fun s hf hsp => ?_⟩
  · exact exec_rts_of_empty hf (by rw [hsp]) (by rw [hsp]; omega)
  · exact exec_rts_of_empty hf (by omega) (by omega)

/-! ## Call and return -/

/-- Settles O19: the two bytes RTS pops are those of the return address that JSR pushed. -/
theorem returnFollowsCall : Obligations.ReturnFollowsCall := by
  intro target s t u hle h hf hsp hreset hlo hhi
  obtain ⟨hroom, ht⟩ := exec_jsr_pushes h
  rw [ht] at hsp
  have hnat : u.sp.toNat = s.sp.toNat + 2 := by rw [hsp]; exact toNat_add_ofNat (n := 2) (by omega)
  have htop : u.sp.toNat - 1 = s.sp.toNat + 1 := by omega
  have hbelow : u.sp.toNat - 2 = s.sp.toNat := by omega
  have hback : u.sp - 2 = s.sp := by rw [hsp]; bv_omega
  rw [exec_rts_of_two_bytes hf (by omega) (by bv_omega) (by bv_omega), htop, hbelow, hback, hlo, hhi,
    exec_jsr_read_lo h, exec_jsr_read_hi h, joinBytes_hiByte_loByte]

end Sys2Proof.Proofs

/-! PROOFS. ADC (spec/43_adc.md R85 to R87): the state after it, then the sum of two words byte by byte, whose one
idea is that C of the low sum is its quotient by 256. -/

namespace Sys2Proof.Proofs

open Sys2Proof.Machine Sys2Proof.Safety

/-! ## One ADC -/

/-- A natural number truncated to a byte (R5). -/
theorem truncByte_natCast (n : Nat) : truncByte (n : Int) = BitVec.ofNat 8 (n % 256) := by
  have hn := truncByte_toInt (n : Int)
  refine BitVec.eq_of_toNat_eq ?_
  rw [BitVec.toNat_ofNat]
  omega

section Adc

variable {s : State} (imm : Byte) (hf : Fits s 2)
include hf

/-- ADC whose bytes fit writes A, Z and N from the raw sum on the register-write path, and C from it (R85). -/
theorem exec_adcImm : exec (.adcImm imm) s = .next
    (writeReg .a ((s.a.toNat + imm.toNat + carryIn s.c : Nat) : Int)
      { s with pc := s.pc + 2, c := carryFlag (s.a.toNat + imm.toNat + carryIn s.c) }) := by
  rw [exec, execAdcImm, consume_bind_of_fits hf]
  rfl

/-- ADC whose bytes fit leaves the raw sum modulo 256 in A and its carry in C (R85). -/
theorem exec_adcImm_a_c {raw : Nat} (hraw : s.a.toNat + imm.toNat + carryIn s.c = raw) :
    ∃ t, exec (.adcImm imm) s = .next t ∧ t.a.toNat = raw % 256 ∧ t.c = carryFlag raw := by
  subst hraw
  refine ⟨_, exec_adcImm imm hf, ?_, writeReg_c _ _ _⟩
  rw [writeReg_a_a, truncByte_natCast, BitVec.toNat_ofNat]
  exact Nat.mod_mod _ _

end Adc

/-- Settles O20: the register-write path of the raw sum, with A, Z and N read off as remainders. -/
theorem adcAddsWithCarry : Obligations.AdcAddsWithCarry := by
  refine ⟨fun imm => rfl, fun imm s hf => ?_⟩
  rw [exec_adcImm imm hf]
  generalize hraw : s.a.toNat + imm.toNat + carryIn s.c = raw
  have hz : zeroFlag (truncByte (raw : Int)) = decide (raw % 256 = 0) := by
    rw [zeroFlag_truncByte, decide_eq_decide]
    omega
  have hn : negativeFlag (truncByte (raw : Int)) = decide (raw % 256 > 0x7F) := by
    rw [negativeFlag_truncByte, decide_eq_decide]
    omega
  simp only [writeReg, State.setReg, hz, hn]
  rw [truncByte_natCast, ← hraw]
  rfl

/-! ## Two ADCs chained through C -/

/-- The carry of a sum of two bytes and a carry, read back as a number, is the sum's quotient by 256 (R85, R87). -/
theorem carryIn_carryFlag {raw : Nat} (h : raw < 512) : carryIn (carryFlag raw) = raw / 256 := by
  simp only [carryIn, carryFlag, decide_eq_true_eq]
  split <;> omega

/-- The high bytes of two words and the carry of their low bytes add up to the high part of the words' sum (R87). -/
theorem highBytes_add_carry (m n : Nat) :
    m / 256 + n / 256 + carryIn (carryFlag (m % 256 + n % 256)) = (m + n) / 256 := by
  rw [carryIn_carryFlag (by omega)]
  omega

/-- Settles O21: the first ADC has the low sum as its raw sum, and the second, through the carry, the high part of
the sum of the words. -/
theorem adcChainAddsWords : Obligations.AdcChainAddsWords := by
  intro p q s hf ha hc
  have hp := p.isLt
  have hq := q.isLt
  have hlow : s.a.toNat + (BitVec.ofNat 8 (q.toNat % 256)).toNat + carryIn s.c = p.toNat % 256 + q.toNat % 256 := by
    rw [ha, hc, BitVec.toNat_ofNat, BitVec.toNat_ofNat, Nat.mod_mod, Nat.mod_mod]
    rfl
  obtain ⟨t, ht, hta, htc⟩ := exec_adcImm_a_c _ hf hlow
  refine ⟨t, ht, by omega, fun u hfu hau hcu => ?_⟩
  have hhigh : u.a.toNat + (BitVec.ofNat 8 (q.toNat / 256)).toNat + carryIn u.c = (p.toNat + q.toNat) / 256 := by
    rw [hau, hcu, htc, BitVec.toNat_ofNat, BitVec.toNat_ofNat, Nat.mod_eq_of_lt (by omega), Nat.mod_eq_of_lt (by omega)]
    exact highBytes_add_carry _ _
  obtain ⟨w, hw, hwa, hwc⟩ := exec_adcImm_a_c _ hfu hhigh
  refine ⟨w, hw, hwa, hwc.trans (decide_eq_decide.mpr ?_)⟩
  omega

end Sys2Proof.Proofs

/-! PROOFS. The stores (spec/44_stores.md R88 to R92, R115): the state after each form, the faults of the two indexed
forms, then the one write that all five have in common. -/

namespace Sys2Proof.Proofs

open Sys2Proof.Machine Sys2Proof.Safety

/-! ## The stores whose address the operand gives -/

/-- STA abs whose bytes fit writes A at its operand (R90). -/
theorem exec_staAbs {s : State} (addr : Addr) (hf : Fits s 3) :
    exec (.staAbs addr) s = .next { s with mem := s.mem.write addr.toNat s.a, pc := s.pc + 3 } := by
  rw [exec, execStaAbs, consume_bind_of_fits hf, eaAbs, memWrite_addr]
  rfl

/-- Settles O22: a write at a zero-page address never faults. -/
theorem staZeroPage : Obligations.StaZeroPage := by
  refine ⟨fun zp => rfl, fun zp s hf => ?_⟩
  rw [exec, execStaZp, consume_bind_of_fits hf, memWrite_eaZp]
  rfl

/-- Settles O23: writes at a zero-page and at a 16-bit address never fault. -/
theorem plainStores : Obligations.PlainStores := by
  refine ⟨fun zp => rfl, fun addr => congrArg (0x8D :: ·) (wordBytes_eq addr), fun zp s hf => ?_,
    fun addr s => exec_staAbs addr⟩
  rw [exec, execStxZp, consume_bind_of_fits hf, memWrite_eaZp]
  rfl

/-! ## The indexed stores -/

section Indexed

variable {addr : Addr} {s : State}

/-- The effective address of ABSY is the indexed operand, which an instruction fetch does not change (R77). -/
theorem eaAbsY_pc (p : Addr) : eaAbsY addr { s with pc := p } = indexByY addr s := rfl

/-- STA abs,Y stores A at its operand plus Y where that lies in memory (R91). -/
theorem exec_staAbsY_of_le (hf : Fits s 3) (h : addr.toNat + s.y.toNat ≤ 0xFFFF) :
    exec (.staAbsY addr) s =
      .next { s with mem := s.mem.write (addr.toNat + s.y.toNat) s.a, pc := s.pc + 3 } := by
  have hea : indexByY addr s = .ok ((addr.toNat + s.y.toNat : Nat) : Int) :=
    indexByY_eq_ok.mpr ⟨h, Int.natCast_add _ _⟩
  rw [exec, execStaAbsY, consume_bind_of_fits hf, eaAbsY_pc, hea, ok_bind, memWrite_eq (by omega) (by omega)]
  rfl

/-- STA abs,Y faults where its operand plus Y exceeds 0xFFFF (R78, R91, D3). -/
theorem exec_staAbsY_of_gt (hf : Fits s 3) (h : 0xFFFF < addr.toNat + s.y.toNat) :
    exec (.staAbsY addr) s = .fault (.addressOutOfRange .dataAddress) := by
  have hea : indexByY addr s = .error (.addressOutOfRange .dataAddress) :=
    indexByY_eq_error.mpr ⟨h, rfl⟩
  rw [exec, execStaAbsY, consume_bind_of_fits hf, eaAbsY_pc, hea, error_bind, deliver_error]

/-- Operand 0xFF under the setting fault has no effective address (R76, D8). -/
theorem eaIndY_of_fault (h : s.indyFF = .fault) : eaIndY 0xFF s = .error (.pointerStraddle 0xFF) := by
  simp [eaIndY, pointerHighAt, h]

end Indexed

/-- Settles O24: the sum lies in memory and is written, or it faults. -/
theorem staAbsYStoresOrFaults : Obligations.StaAbsYStoresOrFaults :=
  ⟨fun addr => congrArg (0x99 :: ·) (wordBytes_eq addr), fun _ _ => exec_staAbsY_of_le,
    fun _ _ => exec_staAbsY_of_gt⟩

/-- Settles O25: the instruction follows its effective address, which is the indexed pointer away from operand 0xFF. -/
theorem staIndYStoresOrFaults : Obligations.StaIndYStoresOrFaults := by
  refine ⟨fun zp => rfl, fun zp s hf hzp => ⟨fun hle => ?_, fun hgt => ?_⟩, fun s hf hset => ?_⟩
  · exact exec_staIndY_of_ok hf ((eaIndY_eq hzp s).trans (indexByY_joinBytes hle))
  · exact exec_staIndY_of_error hf ((eaIndY_eq hzp s).trans (indexByY_joinBytes_of_gt hgt))
  · exact exec_staIndY_of_error hf (eaIndY_of_fault hset)

/-! ## The one write of a store -/

/-- A store writes one byte, at the only address its meaning computes, and otherwise `pc` (R115). -/
theorem effect_store {i : Instr} {s t : State} (hi : isStore i.op = true) (h : Effect i s t) :
    ∃ ea : Int, storesTo i s ea ∧ (∀ other : Int, storesTo i s other → other = ea) ∧ 0 ≤ ea ∧ ea ≤ 0xFFFF ∧
      t = { s with mem := s.mem.write ea.toNat (if i.op = .stxZp then s.x else s.a), pc := t.pc } := by
  cases i with
  | staZp zp | stxZp zp =>
    obtain rfl := h
    have hlt := zp.isLt
    exact ⟨eaZp zp, rfl, fun _ e => e, Int.natCast_nonneg _, by rw [eaZp]; omega, rfl⟩
  | staAbs addr =>
    obtain rfl := h
    have hlt := addr.isLt
    exact ⟨eaAbs addr, rfl, fun _ e => e, Int.natCast_nonneg _, by rw [eaAbs]; omega, rfl⟩
  | staAbsY | staIndY =>
    obtain ⟨ea, hea, ⟨hlo, hhi⟩, rfl⟩ := h
    exact ⟨ea, hea, fun _ e => Except.ok.inj (e.symm.trans hea), hlo, hhi, rfl⟩
  | _ => cases hi

/-- Settles O39: the one write of a store, and STA abs, which completes at every address. -/
theorem storesWriteOneByte : Obligations.StoresWriteOneByte :=
  ⟨fun _ _ _ hi h => effect_store hi (exec_effect h).2,
    fun addr _ hf => ⟨_, exec_staAbs addr hf, execStaAbs_read (exec_staAbs addr hf)⟩⟩

end Sys2Proof.Proofs

/-! PROOFS. The loads (spec/45_loads.md R93 to R97): the state after each of the two address modes, for any register,
of which the five instructions are cases. -/

namespace Sys2Proof.Proofs

open Sys2Proof.Machine Sys2Proof.Safety

/-- What the register-write path makes of a byte: no truncation, and Z and N from that byte (R12). -/
theorem writeReg_byte (r : Reg) (b : Byte) (s : State) :
    writeReg r (b.toNat : Int) s = { s.setReg r b with z := decide (b = 0#8), n := decide (0x7F < b.toNat) } := by
  rw [← zeroFlag_eq, writeReg, truncByte_toNat]
  rfl

section Loads

variable {s : State} (r : Reg) (hf : Fits s 2)
include hf

/-- An immediate load whose bytes fit writes its operand to the register (R93 to R95). -/
theorem loadImm_of_fits (v : Byte) : loadImm r v s = .next
    { s.setReg r v with z := decide (v = 0#8), n := decide (0x7F < v.toNat), pc := s.pc + 2 } := by
  rw [loadImm, consume_bind_of_fits hf, writeReg_byte]
  cases r <;> rfl

/-- A zero-page load whose bytes fit does what the immediate load of the cell's byte does (R96, R97). -/
theorem loadZp_eq_loadImm (zp : Byte) : loadZp r zp s = loadImm r (s.mem.read zp.toNat) s := by
  rw [loadZp, loadImm, consume_bind_of_fits hf, consume_bind_of_fits hf, memRead_eaZp, ok_bind]

/-- A zero-page load whose bytes fit writes the cell's byte to the register (R96, R97). -/
theorem loadZp_of_fits (zp : Byte) : loadZp r zp s = .next
    { s.setReg r (s.mem.read zp.toNat) with
      z := decide (s.mem.read zp.toNat = 0#8), n := decide (0x7F < (s.mem.read zp.toNat).toNat), pc := s.pc + 2 } :=
  (loadZp_eq_loadImm r hf zp).trans (loadImm_of_fits r hf _)

end Loads

/-- Settles O28: the immediate load into A. -/
theorem ldaImmediate : Obligations.LdaImmediate :=
  ⟨fun _ => rfl, fun v _ hf => loadImm_of_fits .a hf v⟩

/-- Settles O29: the immediate loads into X and Y. -/
theorem immediateLoads : Obligations.ImmediateLoads :=
  ⟨fun _ => ⟨rfl, rfl⟩, fun v _ hf => ⟨loadImm_of_fits .x hf v, loadImm_of_fits .y hf v⟩⟩

/-- Settles O30: the zero-page loads into A and Y. -/
theorem zeroPageLoads : Obligations.ZeroPageLoads :=
  ⟨fun _ => ⟨rfl, rfl⟩, fun zp _ hf => ⟨loadZp_of_fits .a hf zp, loadZp_of_fits .y hf zp⟩⟩

end Sys2Proof.Proofs

/-! PROOFS. The transfers, the register steps and the memory steps (spec/46_transfers_incdec.md R98 to R105): a step
truncated to a byte is addition or subtraction on bytes, which gives the register, the flags and the cell. -/

namespace Sys2Proof.Proofs

open Sys2Proof.Machine Sys2Proof.Safety

/-! ## A step on bytes -/

/-- One more than a byte, truncated, is the wrapping sum (R5, D10). -/
theorem truncByte_succ (b : Byte) : truncByte ((b.toNat : Int) + 1) = b + 1 := by
  have h := truncByte_toInt ((b.toNat : Int) + 1)
  bv_omega

/-- One less than a byte, truncated, is the wrapping difference (R5, D10, D11). -/
theorem truncByte_pred (b : Byte) : truncByte ((b.toNat : Int) + -1) = b - 1 := by
  have h := truncByte_toInt ((b.toNat : Int) + -1)
  bv_omega

/-- A step up of a register wraps, with Z at the wrap to zero and N from bit 7 of the result (R100, R102). -/
theorem writeReg_succ (r : Reg) (b : Byte) (s : State) : writeReg r ((b.toNat : Int) + 1) s =
    { s.setReg r (b + 1) with z := decide (b = 0xFF#8), n := decide (0x7F ≤ b.toNat ∧ b.toNat ≤ 0xFE) } := by
  have hb := b.isLt
  have hz : zeroFlag (truncByte ((b.toNat : Int) + 1)) = decide (b = 0xFF#8) := by
    rw [zeroFlag_truncByte, decide_eq_decide, BitVec.toNat_eq, BitVec.toNat_ofNat]
    omega
  have hn : negativeFlag (truncByte ((b.toNat : Int) + 1)) = decide (0x7F ≤ b.toNat ∧ b.toNat ≤ 0xFE) := by
    rw [negativeFlag_truncByte, decide_eq_decide]
    omega
  simp only [writeReg, hz, hn]
  rw [truncByte_succ]

/-- A step down of a register wraps, with Z at the step to zero and N from bit 7 of the result (R101, R103, D11). -/
theorem writeReg_pred (r : Reg) (b : Byte) (s : State) : writeReg r ((b.toNat : Int) + -1) s =
    { s.setReg r (b - 1) with z := decide (b = 1#8), n := decide (b = 0#8 ∨ 0x80 < b.toNat) } := by
  have hb := b.isLt
  have hz : zeroFlag (truncByte ((b.toNat : Int) + -1)) = decide (b = 1#8) := by
    rw [zeroFlag_truncByte, decide_eq_decide, BitVec.toNat_eq, BitVec.toNat_ofNat]
    omega
  have hn : negativeFlag (truncByte ((b.toNat : Int) + -1)) = decide (b = 0#8 ∨ 0x80 < b.toNat) := by
    rw [negativeFlag_truncByte, decide_eq_decide, BitVec.toNat_eq, BitVec.toNat_ofNat]
    omega
  simp only [writeReg, hz, hn]
  rw [truncByte_pred]

/-! ## The instructions' shared forms -/

section Steps

variable {s : State}

/-- An instruction fetch changes no register (R11, R16). -/
theorem reg_pc (s : State) (r : Reg) (p : Addr) : State.reg { s with pc := p } r = s.reg r := by
  cases r <;> rfl

/-- A transfer whose byte fits copies the source, with Z and N from the copied byte (R98, R99). -/
theorem transfer_of_fits (src dst : Reg) (hf : Fits s 1) : transfer src dst s = .next
    { s.setReg dst (s.reg src) with
      z := decide (s.reg src = 0#8), n := decide (0x7F < (s.reg src).toNat), pc := s.pc + 1 } := by
  rw [transfer, consume_bind_of_fits hf, reg_pc, writeReg_byte]
  cases dst <;> rfl

/-- A step up whose byte fits adds one to the register (R100, R102). -/
theorem stepReg_up_of_fits (r : Reg) (hf : Fits s 1) : stepReg r 1 s = .next
    { s.setReg r (s.reg r + 1) with
      z := decide (s.reg r = 0xFF#8),
      n := decide (0x7F ≤ (s.reg r).toNat ∧ (s.reg r).toNat ≤ 0xFE), pc := s.pc + 1 } := by
  rw [stepReg, consume_bind_of_fits hf, reg_pc, writeReg_succ]
  cases r <;> rfl

/-- A step down whose byte fits takes one from the register (R101, R103). -/
theorem stepReg_down_of_fits (r : Reg) (hf : Fits s 1) : stepReg r (-1) s = .next
    { s.setReg r (s.reg r - 1) with
      z := decide (s.reg r = 1#8), n := decide (s.reg r = 0#8 ∨ 0x80 < (s.reg r).toNat), pc := s.pc + 1 } := by
  rw [stepReg, consume_bind_of_fits hf, reg_pc, writeReg_pred]
  cases r <;> rfl

/-- A memory step whose bytes fit replaces its cell by the truncated sum and changes no flag (R104, R105). -/
theorem stepCell_of_fits (zp : Byte) (d : Int) (hf : Fits s 2) : stepCell zp d s = .next { s with
    mem := s.mem.write zp.toNat (truncByte (((s.mem.read zp.toNat).toNat : Int) + d)), pc := s.pc + 2 } := by
  rw [stepCell, consume_bind_of_fits hf, memRead_eaZp, ok_bind, memWrite_eaZp]
  rfl

end Steps

/-! ## The obligations -/

/-- Settles O32: INY and INX are the step up, DEY and DEX the step down. -/
theorem registerSteps : Obligations.RegisterSteps :=
  ⟨rfl, rfl, rfl, rfl, fun _ hf =>
    ⟨stepReg_up_of_fits .y hf, stepReg_down_of_fits .y hf, stepReg_up_of_fits .x hf, stepReg_down_of_fits .x hf⟩⟩

/-- Settles O33: INC and DEC write the truncated sum, which is the wrapping one. -/
theorem memorySteps : Obligations.MemorySteps := by
  refine ⟨fun zp => ⟨rfl, rfl⟩, fun zp s hf => ⟨?_, ?_⟩⟩
  · rw [← truncByte_succ]
    exact stepCell_of_fits zp 1 hf
  · rw [← truncByte_pred]
    exact stepCell_of_fits zp (-1) hf

/-- Settles O31: the transfers from A to Y and from Y to A. -/
theorem transfersCopy : Obligations.TransfersCopy :=
  ⟨rfl, rfl, fun _ hf => ⟨transfer_of_fits .a .y hf, transfer_of_fits .y .a hf⟩⟩

end Sys2Proof.Proofs

/-! PROOFS. The step (spec/70_reset_and_hazards.md R143, R146): a step runs the instruction its bytes decode to, and
the machine that decodes first equals the pseudocode that fetches each operand byte where its rule does. The idea: the
pseudocode's fetches are the fetches of the meanings, paired with the bytes in memory, which are those decoded. -/

namespace Sys2Proof.Proofs

open Sys2Proof.Machine Sys2Proof.Safety

/-! ## An instruction at the top of memory -/

theorem instr_length_pos (i : Instr) : 0 < i.length :=
  encodeWith_length defaultOpcodeMap i ▸ Nat.succ_pos _

/-- Every instruction with its opcode at 0xFFFF faults at the opcode fetch (R119). -/
theorem exec_of_pc_top {i : Instr} {s : State} (h : s.pc = 0xFFFF#16) :
    exec i s = .fault (.addressOutOfRange .pcIncrement) := by
  by_cases hi : i.op = .jsr
  · cases i with
    | jsr => exact exec_jsr_of_pc_top h
    | _ => cases hi
  · have hlen := instr_length_pos i
    exact exec_of_beyond hi (by bv_omega)

/-- Settles O7: below 0xFFFF by the step, and at 0xFFFF the step and the meaning raise the same fault. -/
theorem stepRunsDecodedInstruction : Obligations.StepRunsDecodedInstruction := by
  intro s i hrun hi
  by_cases hpc : s.pc = 0xFFFF#16
  · rw [step_of_pc_top hrun hpc, exec_of_pc_top hpc]
  · exact step_eq_exec hrun hpc hi

/-! ## The pseudocode's fetches -/

/-- `Fetch8` is the byte at `pc` with the fetch of one instruction byte (R16). -/
theorem fetch8_bind (s : State) (k : Byte × State → Res State) :
    (fetch8 s >>= k) = consume 1 s >>= fun u => k (s.mem.read s.pc.toNat, u) := by
  rw [fetch8_eq, consume_eq]
  split <;> rfl

/-- `Fetch16` answers the word at `pc`, low byte first, or one of its two fetches faults (R17, R18). -/
theorem fetch16_eq (s : State) : fetch16 s =
    if s.pc.toNat + 2 ≤ 0xFFFF then
      .ok (joinBytes (s.mem.read (s.pc.toNat + 1)) (s.mem.read s.pc.toNat), { s with pc := s.pc + 2 })
    else .error (.addressOutOfRange .pcIncrement) := by
  by_cases h1 : Fits s 1
  · have hpc : (s.pc + 1).toNat = s.pc.toNat + 1 := toNat_add_ofNat h1
    have htwo : s.pc + 1 + 1 = s.pc + 2 := by bv_omega
    simp only [fetch16, fetch8_eq, if_pos h1, ok_bind, hpc, htwo, Nat.add_assoc, Nat.reduceAdd]
    split <;> rfl
  · rw [fetch16, fetch8_eq, if_neg h1, error_bind, if_neg (by omega)]

/-- `Fetch16` is the word at `pc` with the fetch of two instruction bytes (R17). -/
theorem fetch16_bind (s : State) (k : Addr × State → Res State) : (fetch16 s >>= k) =
    consume 2 s >>= fun u => k (joinBytes (s.mem.read (s.pc.toNat + 1)) (s.mem.read s.pc.toNat), u) := by
  rw [fetch16_eq, consume_eq]
  split <;> rfl

/-- Once the opcode is fetched, the fetch of an instruction's bytes is that of its operand bytes. -/
theorem consume_succ_of_fits {s : State} (hf : Fits s 1) (n : Nat) :
    consume (n + 1) s = consume n { s with pc := s.pc + 1 } := by
  rw [consume, incPc_eq, if_pos hf, ok_bind]

/-! ## The operand bytes in memory -/

/-- The first byte of a block of memory is the one at its address (R32). -/
theorem read_of_bytesFrom_eq_cons {m : Memory} {a n : Nat} {b : Byte} {rest : List Byte}
    (h : m.bytesFrom a (n + 1) = b :: rest) : m.read a = b ∧ m.bytesFrom (a + 1) n = rest := by
  rw [Memory.bytesFrom] at h
  split at h
  · cases h
  · exact List.cons.inj h

/-- A block of memory that begins with a word's bytes holds them at its first two addresses (R36). -/
theorem read_of_bytesFrom_eq_wordBytes {m : Memory} {a : Nat} {v : Addr} {rest : List Byte}
    (h : m.bytesFrom a 2 = wordBytes v ++ rest) : m.read a = loByte v ∧ m.read (a + 1) = hiByte v := by
  obtain ⟨hlo, h⟩ := read_of_bytesFrom_eq_cons h
  exact ⟨hlo, (read_of_bytesFrom_eq_cons h).1⟩

/-- Operand bytes are missing only for a two-byte operand whose second byte lies beyond 0xFFFF (R58). -/
theorem beyond_of_withOperand_error {m : Memory} {o : Op} {a : Nat} {e : DecodeError} (ha : a ≤ 0xFFFF)
    (h : withOperand o (m.bytesFrom a 2) = .error e) : o.format.length = 3 ∧ 0xFFFF < a + 1 := by
  rw [bytesFrom_succ ha] at h
  cases o with
  | jsr | jmp | staAbs | staAbsY =>
    refine ⟨rfl, Nat.lt_of_not_le fun hle => ?_⟩
    rw [bytesFrom_succ hle] at h
    cases h
  | _ => cases h

/-! ## The rules against the meanings -/

/-- A push leaves `pc` (R25). -/
theorem push8_pc {v : Byte} {s t : State} (h : push8 v s = .ok t) : t.pc = s.pc := by
  obtain ⟨-, rfl⟩ := push8_eq_ok.mp h
  rfl

/-- What JSR reads at an address that held its operand byte before the pushes is the byte there after them (D14). -/
theorem operandAfterPush_of_pushes {s s1 s2 : State} {p : Addr} {v w b : Byte} {a : Nat}
    (h1 : push8 v { s with pc := p } = .ok s1) (h2 : push8 w s1 = .ok s2) (hb : s.mem.read a = b) :
    operandAfterPush s s2 a b = s2.mem.read a := by
  obtain ⟨hne, rfl⟩ := push8_eq_ok.mp h1
  obtain ⟨-, rfl⟩ := push8_eq_ok.mp h2
  have hcell : (s.sp + 1).toNat = s.sp.toNat + 1 := by bv_omega
  unfold operandAfterPush
  split
  · rfl
  · rename_i hno
    obtain ⟨ha, ha'⟩ := not_or.mp hno
    simp only [hcell]
    rw [Memory.read_write_of_ne ha', Memory.read_write_of_ne ha, hb]

section Rules

variable {s : State} (hf : Fits s 1)
include hf

/-- A rule that fetches a one-byte operand is the fetch of both instruction bytes, going on with that operand. -/
theorem fetch8_operand {v : Byte} (hv : s.mem.read (s.pc.toNat + 1) = v) (k : Byte × State → Res State) :
    (fetch8 { s with pc := s.pc + 1 } >>= k) = consume 2 s >>= fun u => k (v, u) := by
  have hpc : (s.pc + 1).toNat = s.pc.toNat + 1 := toNat_add_ofNat hf
  rw [fetch8_bind, consume_succ_of_fits hf, hpc, hv]

/-- A rule that fetches a word is the fetch of all three instruction bytes, going on with that word. -/
theorem fetch16_operand {v : Addr} (hlo : s.mem.read (s.pc.toNat + 1) = loByte v)
    (hhi : s.mem.read (s.pc.toNat + 1 + 1) = hiByte v) (k : Addr × State → Res State) :
    (fetch16 { s with pc := s.pc + 1 } >>= k) = consume 3 s >>= fun u => k (v, u) := by
  have hpc : (s.pc + 1).toNat = s.pc.toNat + 1 := toNat_add_ofNat hf
  rw [fetch16_bind, consume_succ_of_fits hf, hpc, hlo, hhi, joinBytes_hiByte_loByte]

/-- The rule of a one-byte instruction goes on where its meaning does. -/
theorem consume_opcode (k : State → Res State) : (consume 1 s >>= k) = k { s with pc := s.pc + 1 } :=
  consume_bind_of_fits hf k

/-- The branch rule that needs the value `taken` of Z is the fetch of both bytes and the branch on a condition that
says Z has that value (R110, R111, R72). -/
theorem pseudoBranch_eq {off : Int} {taken : Bool} {cond : State → Bool}
    (hv : s.mem.read (s.pc.toNat + 1) = relByte off) (hoff : relInRange off = true)
    (hcond : ∀ u, cond u = true ↔ u.z = taken) :
    pseudoBranch taken { s with pc := s.pc + 1 } = consume 2 s >>= fun u => branchIf (cond u) off u := by
  rw [pseudoBranch, fetch8_operand hf hv]
  simp only [sext8_relByte_of_relInRange hoff, branchIf, hcond]

/-- JSR's rule fetches after the pushes what its meaning reads (R82, D14). -/
theorem pseudoRule_jsr_eq_execJsr {target : Addr} (hlo : s.mem.read (s.pc.toNat + 1) = loByte target)
    (hhi : s.mem.read (s.pc.toNat + 2) = hiByte target) :
    deliver (pseudoRule .jsr { s with pc := s.pc + 1 }) = execJsr target s := by
  rw [execJsr, consume_opcode hf, pseudoRule]
  dsimp only
  split
  · rfl
  refine congrArg deliver ?_
  cases h1 : push8 (loByte (BitVec.ofNat 16 ((s.pc + 1).toNat + 2))) { s with pc := s.pc + 1 } with
  | error => rfl
  | ok s1 =>
    rw [ok_bind, ok_bind]
    cases h2 : push8 (hiByte (BitVec.ofNat 16 ((s.pc + 1).toNat + 2))) s1 with
    | error => rfl
    | ok s2 =>
      have hpc : s2.pc.toNat = s.pc.toNat + 1 := by
        rw [push8_pc h2, push8_pc h1]
        exact toNat_add_ofNat hf
      rw [ok_bind, ok_bind, fetch16_bind, hpc, operandAfterPush_of_pushes h1 h2 hlo,
        operandAfterPush_of_pushes h1 h2 hhi]

/-- The rule of an instruction whose operand bytes lie in memory is, after the opcode fetch, its meaning (R143). -/
theorem pseudoRule_eq_exec {i : Instr} (hi : withOperand i.op (s.mem.bytesFrom (s.pc.toNat + 1) 2) = .ok i) :
    deliver (pseudoRule i.op { s with pc := s.pc + 1 }) = exec i s := by
  obtain ⟨hwf, rest, hbytes⟩ := withOperand_eq_ok hi
  cases i with
  | brk | clc | rts | tay | tya | iny | dey | inx | dex => exact (congrArg deliver (consume_opcode hf _)).symm
  | nop =>
    rw [exec, execNop, consume_eq, if_pos hf]
    rfl
  | jsr =>
    obtain ⟨hlo, hhi⟩ := read_of_bytesFrom_eq_wordBytes hbytes
    exact pseudoRule_jsr_eq_execJsr hf hlo hhi
  | jmp | staAbs | staAbsY =>
    obtain ⟨hlo, hhi⟩ := read_of_bytesFrom_eq_wordBytes hbytes
    exact congrArg deliver (fetch16_operand hf hlo hhi _)
  | beq =>
    obtain ⟨hv, -⟩ := read_of_bytesFrom_eq_cons hbytes
    exact congrArg deliver (pseudoBranch_eq (cond := State.z) hf hv hwf fun _ => Iff.rfl)
  | bne =>
    obtain ⟨hv, -⟩ := read_of_bytesFrom_eq_cons hbytes
    exact congrArg deliver (pseudoBranch_eq (cond := fun u => !u.z) hf hv hwf fun _ => by simp)
  | _ =>
    obtain ⟨hv, -⟩ := read_of_bytesFrom_eq_cons hbytes
    exact congrArg deliver (fetch8_operand hf hv _)

/-- Where operand bytes do not exist, the rule raises the fault of the step (R119, R127). -/
theorem pseudoRule_of_withOperand_error {o : Op} {e : DecodeError}
    (h : withOperand o (s.mem.bytesFrom (s.pc.toNat + 1) 2) = .error e) :
    pseudoRule o { s with pc := s.pc + 1 } = .error (truncationFault o) := by
  have hpc : (s.pc + 1).toNat = s.pc.toNat + 1 := toNat_add_ofNat hf
  obtain ⟨hlen, hbeyond⟩ := beyond_of_withOperand_error hf h
  cases o with
  | jsr => rw [pseudoRule, if_pos (by simp only [hpc]; omega), raise_eq_error, truncationFault]
  | jmp | staAbs | staAbsY =>
    rw [pseudoRule, fetch16_eq, if_neg (by simp only [hpc]; omega), error_bind]
    rfl
  | _ => cases hlen

end Rules

/-- Settles O8: both machines fetch and look up the opcode alike; then the operand exists, and the meaning is the rule,
or it does not, and both raise the same fault. -/
theorem stepEqualsPseudocode : Obligations.StepEqualsPseudocode := by
  intro m s hrun
  rw [stepWith_of_running m hrun, advanceWith, pseudoAdvance, fetchWindow_eq]
  by_cases hpc : s.pc = 0xFFFF#16
  · rw [fetch8_eq, if_neg (by simp [hpc])]
    rfl
  have hf : Fits s 1 := by bv_omega
  rw [fetch8_of_pc_ne_top hpc, ok_bind]
  cases hop : lookup m (s.mem.read s.pc.toNat) with
  | none => simp only [decodeWith, hop, raise_eq_error, deliver_error]
  | some o =>
    simp only [decodeWith, hop]
    cases hw : withOperand o (s.mem.bytesFrom (s.pc.toNat + 1) 2) with
    | ok i =>
      obtain rfl := withOperand_op hw
      exact (pseudoRule_eq_exec hf hw).symm
    | error e =>
      obtain rfl := withOperand_eq_error hw
      rw [pseudoRule_of_withOperand_error hf hw, deliver_error]

/-! ## What is refused -/

/-- Settles O10: every instruction answers, and so does every step of a run that goes on, which is the pseudocode's. -/
theorem onlyHaltedRunsAreRefused : Obligations.OnlyHaltedRunsAreRefused := by
  refine ⟨fun i s r h => ?_, fun s r => ?_⟩
  · obtain ⟨t, ht⟩ | ⟨f, hf⟩ := exec_next_or_fault i s
    · cases ht.symm.trans h
    · cases hf.symm.trans h
  cases hrun : s.halted with
  | true =>
    rw [step, stepWith_of_halted _ hrun]
    simp [eq_comm]
  | false =>
    have hanswers : step s ≠ .refused r := by
      rw [step, stepEqualsPseudocode _ s hrun]
      exact deliver_ne_refused _ r
    exact ⟨fun h => absurd h hanswers, nofun⟩

end Sys2Proof.Proofs

/-! PROOFS. The compares, the branches and NOP (spec/47_compares.md R106 to R109, spec/48_branches_nop.md R110 to
R113): a compare writes Z from the byte it reads, and a taken branch goes to its target or faults. -/

namespace Sys2Proof.Proofs

open Sys2Proof.Machine Sys2Proof.Safety

/-! ## The compares -/

/-- An immediate compare whose bytes fit sets Z to the equality and nothing else but `pc` (R106 to R108). -/
theorem compareImm_of_fits {s : State} (r : Reg) (v : Byte) (hf : Fits s 2) :
    compareImm r v s = .next { s with z := decide (s.reg r = v), pc := s.pc + 2 } := by
  rw [compareImm, consume_bind_of_fits hf, reg_pc]
  rfl

/-- Settles O34: the immediate compare on each register. -/
theorem immediateCompares : Obligations.ImmediateCompares :=
  ⟨fun _ => ⟨rfl, rfl, rfl⟩, fun v _ hf =>
    ⟨compareImm_of_fits .a v hf, compareImm_of_fits .x v hf, compareImm_of_fits .y v hf⟩⟩

/-- Settles O26: the instruction follows its effective address, which is the indexed pointer away from operand 0xFF. -/
theorem cmpIndYComparesOrFaults : Obligations.CmpIndYComparesOrFaults := by
  refine ⟨fun zp => rfl, fun zp s hf hzp => ⟨fun hle => ?_, fun hgt => ?_⟩, fun s hf hset => ?_⟩
  · exact exec_cmpIndY_of_ok hf ((eaIndY_eq hzp s).trans (indexByY_joinBytes hle))
  · exact exec_cmpIndY_of_error hf ((eaIndY_eq hzp s).trans (indexByY_joinBytes_of_gt hgt))
  · exact exec_cmpIndY_of_error hf (eaIndY_of_fault hset)

/-! ## The branches and NOP -/

section Branches

variable {off : Int} {s : State} (hf : Fits s 2)
include hf

/-- BEQ whose bytes fit branches by Z from the address after it (R110, D9). -/
theorem exec_beq_of_fits : exec (.beq off) s = deliver (branchIf s.z off { s with pc := s.pc + 2 }) := by
  rw [exec, execBeq, consume_bind_of_fits hf]
  rfl

/-- BNE whose bytes fit branches by the negation of Z from the address after it (R111, D9). -/
theorem exec_bne_of_fits : exec (.bne off) s = deliver (branchIf (!s.z) off { s with pc := s.pc + 2 }) := by
  rw [exec, execBne, consume_bind_of_fits hf]
  rfl

/-- A taken branch goes to a target in 0..0xFFFF (R113). -/
theorem branchIf_taken {taken : Bool} (ht : taken = true) (h0 : 0 ≤ (s.pc.toNat : Int) + 2 + off)
    (h1 : (s.pc.toNat : Int) + 2 + off ≤ 0xFFFF) : deliver (branchIf taken off { s with pc := s.pc + 2 }) =
      .next { s with pc := BitVec.ofInt 16 ((s.pc.toNat : Int) + 2 + off) } := by
  subst ht
  have hpc : ((s.pc + 2).toNat : Int) = (s.pc.toNat : Int) + 2 := congrArg Nat.cast (toNat_add_ofNat hf)
  rw [← hpc] at h0 h1 ⊢
  exact deliver_eq_next.mpr (branchTo_eq_ok.mpr ⟨⟨h0, h1⟩, rfl⟩)

/-- A taken branch with its target outside 0..0xFFFF faults (R113, D3). -/
theorem branchIf_out_of_range {taken : Bool} (ht : taken = true)
    (h : (s.pc.toNat : Int) + 2 + off < 0 ∨ 0xFFFF < (s.pc.toNat : Int) + 2 + off) :
    deliver (branchIf taken off { s with pc := s.pc + 2 }) = .fault (.addressOutOfRange .branchTarget) := by
  subst ht
  have hpc : ((s.pc + 2).toNat : Int) = (s.pc.toNat : Int) + 2 := congrArg Nat.cast (toNat_add_ofNat hf)
  rw [← hpc] at h
  exact deliver_eq_fault.mpr (branchTo_eq_error.mpr ⟨h, rfl⟩)

end Branches

/-- A branch not taken stays at the address after it (R113). -/
theorem branchIf_not_taken {taken : Bool} (ht : taken = false) (off : Int) (s : State) :
    deliver (branchIf taken off s) = .next s := by
  subst ht
  rfl

/-- Settles O35: each branch by whether it is taken, which Z decides, and a taken one by where its target lies. -/
theorem branchesOnZero : Obligations.BranchesOnZero := by
  refine ⟨fun b => ⟨rfl, rfl⟩, fun off s hf => ?_⟩
  rw [exec_beq_of_fits hf, exec_bne_of_fits hf]
  exact ⟨branchIf_taken hf, branchIf_out_of_range hf, fun hz => branchIf_not_taken hz _ _,
    fun hz => branchIf_taken hf (congrArg not hz), fun hz => branchIf_out_of_range hf (congrArg not hz),
    fun hz => branchIf_not_taken (congrArg not hz) _ _⟩

/-- Settles O36: NOP is the fetch of its byte. -/
theorem nopOnlyAdvances : Obligations.NopOnlyAdvances :=
  ⟨rfl, fun _ hf => deliver_eq_next.mpr (consume_eq_ok.mpr ⟨hf, rfl⟩)⟩

end Sys2Proof.Proofs

/-! PROOFS. The host's construction, `reset()` and `load_program` (spec/70_reset_and_hazards.md R140 to R142): the
memory that each leaves, and every other item as it was or as the launch record says. -/

namespace Sys2Proof.Proofs

open Sys2Proof.Machine Sys2Proof.Safety

/-- Settles O52: the fields of a constructed state. -/
theorem constructionState : Obligations.ConstructionState := fun l =>
  ⟨Memory.read_zero, State.construct_sp l, State.construct_a l, State.construct_x l, State.construct_y l,
    State.construct_c l, State.construct_z l, State.construct_n l, State.construct_pc l, State.construct_spReset l,
    State.construct_indyFF l, State.construct_halted l⟩

/-- Settles O53: the cleared memory is the zero memory. -/
theorem memoryClearTouchesOnlyMemory : Obligations.MemoryClearTouchesOnlyMemory := fun s =>
  ⟨clearMemory s, rfl, Memory.read_zero, rfl⟩

/-- A block of writes leaves each of its bytes at its address (R142). -/
theorem read_writeList_inside {bytes : List Byte} {k : Nat} {b : Byte} (h : bytes[k]? = some b) (m : Memory) (a : Nat) :
    (m.writeList a bytes).read (a + k) = b := by
  induction bytes generalizing m a k with
  | nil => cases h
  | cons v rest ih =>
    cases k with
    | zero =>
      obtain rfl := Option.some.inj h
      exact (Memory.read_writeList_outside rest _ (.inl (Nat.lt_succ_self a))).trans (Memory.read_write_self m a v)
    | succ k =>
      rw [Memory.writeList, Nat.add_comm k 1, ← Nat.add_assoc]
      exact ih h _ _

section Load

variable {bytes : List Byte} {start : Int}

/-- A load in bounds answers the state with its bytes in memory, `pc` at the first of them and a new run (R142, R9). -/
theorem loadProgram_in_bounds (h0 : 0 ≤ start) (h1 : start ≤ 65535) (hend : start + (bytes.length : Int) ≤ 65536)
    (s : State) : loadProgram bytes start s = .next { s with
      mem := s.mem.writeList start.toNat bytes, pc := BitVec.ofInt 16 start, halted := false } :=
  if_pos ⟨h0, h1, hend⟩

/-- A load out of bounds is refused (R133, D17). -/
theorem loadProgram_out_of_bounds (h : start < 0 ∨ 65535 < start ∨ 65536 < start + (bytes.length : Int)) (s : State) :
    loadProgram bytes start s = .refused .loadOutOfBounds :=
  if_neg (by omega)

end Load

/-- Settles O54: in bounds the block of writes, read inside and outside it; out of bounds the refusal. -/
theorem loadProgramPlacesBytes : Obligations.LoadProgramPlacesBytes := by
  refine ⟨fun bytes start s h0 h1 hend => ?_, fun _ _ s h => loadProgram_out_of_bounds h s⟩
  refine ⟨_, loadProgram_in_bounds h0 h1 hend s, toNat_ofInt_addr h0 h1, fun k b hk => ?_, fun a ha => ?_,
    rfl, rfl, rfl, rfl, rfl, rfl, rfl, rfl, rfl, rfl⟩
  · exact read_writeList_inside hk s.mem start.toNat
  · exact Memory.read_writeList_outside bytes s.mem (by omega)

end Sys2Proof.Proofs
